-- ==== Sys2Proof/Config.lean ====
section
/-! DEFINITION. The static parameters of one instance of the block: the pair (W, ES), the constants derived from it
(00_scope.md R6 to R9), the construction-time check (70_reset_and_hazards.md R193), the open parameter LAT and the free
values of the response ports in a cycle that carries no response (93_implementation_defined.md U12). -/

namespace Sys2Proof

/-- The raw-pattern widths the block is built for (00_scope.md R6). -/
inductive Width where
  | w8 | w16 | w32 | w64
  deriving DecidableEq, Repr

/-- W as a number of bits (00_scope.md R6). -/
def Width.bits : Width → Nat
  | .w8 => 8
  | .w16 => 16
  | .w32 => 32
  | .w64 => 64

/-- ceil(log2 W), for the widths of R6 (00_scope.md R8, the row LW). -/
def Width.log2 : Width → Nat
  | .w8 => 3
  | .w16 => 4
  | .w32 => 5
  | .w64 => 6

/-- The width of W bits, where the block can be built with that W (70_reset_and_hazards.md R193). -/
def Width.ofBits? : Nat → Option Width
  | 8 => some .w8
  | 16 => some .w16
  | 32 => some .w32
  | 64 => some .w64
  | _ => none

/-- A number format: a pair (W, ES) the block can be built for. The proof field is the construction-time check of
70_reset_and_hazards.md R193 ("takes a proof of the two conditions"): an unsupported pair is no `Format`. -/
structure Format where
  width : Width
  es : Nat
  es_le : es + 3 ≤ width.bits
  deriving DecidableEq, Repr

/-- The construction-time check as a partial constructor: every pair but the supported ones is refused
(70_reset_and_hazards.md R193, 60_exceptions.md R188). -/
def Format.make? (w es : Nat) : Option Format :=
  match Width.ofBits? w with
  | none => none
  | some width => if h : es + 3 ≤ width.bits then some ⟨width, es, h⟩ else none

/-- The reference instance (W, ES) = (64, 2) (00_scope.md R3). -/
def Format.reference : Format := ⟨.w64, 2, by decide⟩

/-- W, the width of the raw pattern (00_scope.md R6). -/
abbrev Format.W (F : Format) : Nat := F.width.bits

theorem Width.eight_le_bits (w : Width) : 8 ≤ w.bits := by
  cases w <;> decide

theorem Format.eight_le_W (F : Format) : 8 ≤ F.W :=
  F.width.eight_le_bits

/-- ES, the width of the exponent field (00_scope.md R7). -/
abbrev Format.ES (F : Format) : Nat := F.es

/-- LW, the width of every unsigned length port (00_scope.md R8). -/
abbrev Format.LW (F : Format) : Nat := F.width.log2

/-- KW, the width of every signed regime-value port (00_scope.md R8). -/
abbrev Format.KW (F : Format) : Nat := F.width.log2 + 2

/-- FW, the width of the left-aligned fraction port of DEC (00_scope.md R8). -/
abbrev Format.FW (F : Format) : Nat := F.width.bits - 3

/-- MAXREG, the longest regime run that packs normally, for patterns of `w` bits (00_scope.md R8). -/
abbrev maxReg (w : Nat) : Nat := w - 2

/-- QS, the fraction bits of the division quotient, for patterns of `w` bits (00_scope.md R8). -/
abbrev quotientBits (w : Nat) : Nat := w

/-- USEED, the regime's scale base (00_scope.md R8). -/
def useed (es : Nat) : Nat := 2 ^ 2 ^ es

/-- MAXSCALE, the binary scale of MAXPOS (00_scope.md R8). -/
def maxScale (w es : Nat) : Nat := (w - 2) * 2 ^ es

/-- LAT, the cycles from request to response of a pipelined implementation: a parameter the spec leaves open and no rule
reads (00_scope.md R9, 70_reset_and_hazards.md R203; log 4). -/
opaque Config.LAT : Nat

/-- The value on response port number `port` in idle cycle number `cycle`: free, because the response ports of a cycle
with rsp_valid = 0 outside reset are "not meaningful" (93_implementation_defined.md U12; log 3). -/
opaque Config.idlePort : Nat → Nat → Nat

end Sys2Proof
end

