-- ==== Sys2Proof/Word.lean ====
section
/-! DEFINITION. The bit vectors that cross the block's boundary (10_state.md R24, R25) and the named patterns of
00_scope.md R8. A pattern of `w` bits has bit w − 1 as its sign bit (00_scope.md R10). -/

namespace Sys2Proof

/-- A raw pattern: an opaque W-bit unsigned integer (10_state.md R27). -/
abbrev Pattern (F : Format) : Type := BitVec F.W

/-- A packed body: bits W−2..0 of a magnitude pattern (00_scope.md R15). -/
abbrev Body (F : Format) : Type := BitVec (F.W - 1)

/-- A regime-value port: KW bits, two's complement (10_state.md R24, R25). -/
abbrev RegimePort (F : Format) : Type := BitVec F.KW

/-- An exponent port: ES bits, unsigned, of width 0 when ES = 0 (10_state.md R24, R25). -/
abbrev ExponentPort (F : Format) : Type := BitVec F.ES

/-- The fraction port of PACK and ENC: 2·W bits, left-aligned, no hidden bit (10_state.md R24). -/
abbrev FractionPort (F : Format) : Type := BitVec (2 * F.W)

/-- A length port: LW bits, unsigned (10_state.md R25). -/
abbrev LengthPort (F : Format) : Type := BitVec F.LW

/-- ZERO (00_scope.md R8). -/
def zeroPat (w : Nat) : BitVec w := BitVec.ofNat w 0

/-- NAR, "1 << (W−1)" (00_scope.md R8). -/
def nar (w : Nat) : BitVec w := BitVec.ofNat w (2 ^ (w - 1))

/-- ONE, the pattern of the value 1 (00_scope.md R8). -/
def one (w : Nat) : BitVec w := BitVec.ofNat w (2 ^ (w - 2))

/-- MAXPOS, the largest positive pattern (00_scope.md R8). -/
def maxpos (w : Nat) : BitVec w := BitVec.ofNat w (2 ^ (w - 1) - 1)

/-- MINPOS, the smallest positive pattern (00_scope.md R8). -/
def minpos (w : Nat) : BitVec w := BitVec.ofNat w 1

end Sys2Proof
end

