-- ==== Sys2Proof/Syntax.lean ====
section
/-! DEFINITION. The instructions: one constructor per row of spec/opcode_table.json, written as the script notation of
30_encoding.md R59 writes a request, with the operands of the request's format as numbers. -/

namespace Sys2Proof

/-- One request in the script notation of 30_encoding.md R59. Patterns, bodies, exponents and fractions are numbers, the
regime value k is a signed number; `WellFormed` says which numbers fit the ports of a format (W, ES). -/
inductive Instr where
  /-- PASS a (40_field_codec.md R70). -/
  | pass (a : Nat)
  /-- NEG a (40_field_codec.md R73). -/
  | neg (a : Nat)
  /-- RLEN a (40_field_codec.md R75). -/
  | rlen (a : Nat)
  /-- DEC a (40_field_codec.md R77). -/
  | dec (a : Nat)
  /-- PACK k, e, ff (40_field_codec.md R82). -/
  | pack (k : Int) (e ff : Nat)
  /-- ROUND p, bnp1, more, sticky (41_rounding_engine.md R105). -/
  | round (p : Nat) (bnp1 more sticky : Bool)
  /-- ENC s, k, e, ff, sticky (41_rounding_engine.md R108). -/
  | enc (sign : Bool) (k : Int) (e ff : Nat) (sticky : Bool)
  /-- The reserved code 0x7 (30_encoding.md R57). -/
  | reserved7
  /-- MUL a, b (42_multiply_divide.md R122). -/
  | mul (a b : Nat)
  /-- DIV a, b (42_multiply_divide.md R132). -/
  | div (a b : Nat)
  /-- EQ a, b (43_comparator.md R151). -/
  | eq (a b : Nat)
  /-- LE a, b (43_comparator.md R153). -/
  | le (a b : Nat)
  /-- LT a, b (43_comparator.md R155). -/
  | lt (a b : Nat)
  /-- GT a, b (43_comparator.md R157). -/
  | gt (a b : Nat)
  /-- The reserved code 0xE (30_encoding.md R57). -/
  | reservedE
  /-- The reserved code 0xF (30_encoding.md R57). -/
  | reservedF
  deriving DecidableEq, Repr

/-- The pseudo-operation GE a, b, which expands to LE b, a (30_encoding.md R60). -/
def Instr.ge (a b : Nat) : Instr := .le b a

/-- The pseudo-operation MOV a, which expands to PASS a (30_encoding.md R60). -/
def Instr.mov (a : Nat) : Instr := .pass a

/-- `frac(x, n)`: the n-bit fraction x left-aligned into the 2·W bits of `ff` (30_encoding.md R59). -/
def frac (F : Format) (x n : Nat) : Nat := x * 2 ^ (2 * F.W - n)

/-- The request formats of 30_encoding.md R51, and `none` for the reserved codes, which read no operand port
(60_exceptions.md R176). -/
inductive OperandFormat where
  | r1 | r2 | fp | fr | fe | none
  deriving DecidableEq, Repr

end Sys2Proof
end

