-- ==== Sys2Proof/WellFormed.lean ====
section
/-! DEFINITION. Which operand numbers fit the request ports of a format (10_state.md R24, 30_encoding.md R54). Every value
of every port is legal (30_encoding.md R58), so fitting the port is the whole check. -/

namespace Sys2Proof

/-- A number that fits the ports `a` and `b`: W bits. -/
abbrev fitsPattern (F : Format) (a : Nat) : Prop := a < 2 ^ F.W

/-- A number that fits the port `fk`: KW bits, two's complement. -/
abbrev fitsRegime (F : Format) (k : Int) : Prop := -(2 ^ (F.KW - 1) : Int) ≤ k ∧ k < 2 ^ (F.KW - 1)

/-- A number that fits the port `fe`: ES bits, so only 0 when ES = 0. -/
abbrev fitsExponent (F : Format) (e : Nat) : Prop := e < 2 ^ F.ES

/-- A number that fits the port `ff`: 2·W bits. -/
abbrev fitsFraction (F : Format) (ff : Nat) : Prop := ff < 2 ^ (2 * F.W)

/-- A number that fits the port `fp`: W − 1 bits. -/
abbrev fitsBody (F : Format) (p : Nat) : Prop := p < 2 ^ (F.W - 1)

/-- The instruction's operands fit the request ports of the format. -/
def Instr.wellFormed (F : Format) (i : Instr) : Bool :=
  match i with
  | .pass a | .neg a | .rlen a | .dec a => decide (fitsPattern F a)
  | .pack k e ff => decide (fitsRegime F k) && decide (fitsExponent F e) && decide (fitsFraction F ff)
  | .round p _ _ _ => decide (fitsBody F p)
  | .enc _ k e ff _ => decide (fitsRegime F k) && decide (fitsExponent F e) && decide (fitsFraction F ff)
  | .mul a b | .div a b | .eq a b | .le a b | .lt a b | .gt a b =>
    decide (fitsPattern F a) && decide (fitsPattern F b)
  | .reserved7 | .reservedE | .reservedF => true

end Sys2Proof
end

