-- ==== Sys2Proof/Decode.lean ====
section
/-! DEFINITION. The request ports, the request word that carries them (30_encoding.md R53), the decoder (R52, R55) and the
canonical encoder (R53, R54). -/

namespace Sys2Proof

/-- The operation code and operand ports of one request (10_state.md R24). -/
structure Request (F : Format) where
  op : BitVec 4
  a : Pattern F
  b : Pattern F
  fs : Bool
  fk : RegimePort F
  fe : ExponentPort F
  ff : FractionPort F
  fp : Body F
  rBnp1 : Bool
  rMore : Bool
  rSticky : Bool
  deriving DecidableEq, Repr

/-- Every request port 0. -/
def Request.zero (F : Format) : Request F where
  op := 0
  a := 0
  b := 0
  fs := false
  fk := 0
  fe := 0
  ff := 0
  fp := 0
  rBnp1 := false
  rMore := false
  rSticky := false

/-- The width of the request word (30_encoding.md R53). -/
abbrev Format.wordBits (F : Format) : Nat := 5 * F.W + F.KW + F.ES + 7

theorem Format.wordBits_eq (F : Format) :
    4 + F.W + F.W + 1 + F.KW + F.ES + 2 * F.W + (F.W - 1) + 1 + 1 + 1 = F.wordBits := by
  have := F.eight_le_W
  simp only [Format.wordBits]
  omega

/-- The request word: the concatenation `{op, a, b, fs, fk, fe, ff, fp, r_bnp1, r_more, r_sticky}`, high bits first
(30_encoding.md R53). -/
def Request.toWord {F : Format} (r : Request F) : BitVec F.wordBits :=
  (r.op ++ r.a ++ r.b ++ BitVec.ofBool r.fs ++ r.fk ++ r.fe ++ r.ff ++ r.fp ++ BitVec.ofBool r.rBnp1 ++
    BitVec.ofBool r.rMore ++ BitVec.ofBool r.rSticky).cast F.wordBits_eq

/-- The request ports carried by a word, each at the bit positions of the table of 30_encoding.md R53. -/
def Request.ofWord {F : Format} (w : BitVec F.wordBits) : Request F where
  op := w.extractLsb' (5 * F.W + 3 + F.ES + F.KW) 4
  a := w.extractLsb' (4 * F.W + 3 + F.ES + F.KW) F.W
  b := w.extractLsb' (3 * F.W + 3 + F.ES + F.KW) F.W
  fs := w.getLsbD (3 * F.W + 2 + F.ES + F.KW)
  fk := w.extractLsb' (3 * F.W + 2 + F.ES) F.KW
  fe := w.extractLsb' (3 * F.W + 2) F.ES
  ff := w.extractLsb' (F.W + 2) (2 * F.W)
  fp := w.extractLsb' 3 (F.W - 1)
  rBnp1 := w.getLsbD 2
  rMore := w.getLsbD 1
  rSticky := w.getLsbD 0

/-- Decoding: the 4-bit port `op` alone selects the operation, which then reads the ports of its format and no other
(30_encoding.md R50 to R52, R54, R55). Total: each of the 16 codes has one arm, 15 being the last. -/
def decode {F : Format} (r : Request F) : Instr :=
  match r.op.toNat with
  | 0 => .pass r.a.toNat
  | 1 => .neg r.a.toNat
  | 2 => .rlen r.a.toNat
  | 3 => .dec r.a.toNat
  | 4 => .pack r.fk.toInt r.fe.toNat r.ff.toNat
  | 5 => .round r.fp.toNat r.rBnp1 r.rMore r.rSticky
  | 6 => .enc r.fs r.fk.toInt r.fe.toNat r.ff.toNat r.rSticky
  | 7 => .reserved7
  | 8 => .mul r.a.toNat r.b.toNat
  | 9 => .div r.a.toNat r.b.toNat
  | 10 => .eq r.a.toNat r.b.toNat
  | 11 => .le r.a.toNat r.b.toNat
  | 12 => .lt r.a.toNat r.b.toNat
  | 13 => .gt r.a.toNat r.b.toNat
  | 14 => .reservedE
  | _ => .reservedF

/-- Decoding a request word of the format's width. -/
def decodeWord (F : Format) (w : BitVec F.wordBits) : Instr :=
  decode (Request.ofWord w)

/-- Why a string of bits is no request word. -/
inductive DecodeError where
  /-- It is not exactly 5·W + KW + ES + 7 bits long: "Every request has the same length" (30_encoding.md R50). -/
  | wrongLength
  deriving DecidableEq, Repr

/-- Decoding a string of `len` bits whose unsigned value is `w`: total, and rejecting by name every string that is not one
request word long (30_encoding.md R50, R53; log 8). -/
def decodeBits (F : Format) (len w : Nat) : Except DecodeError Instr :=
  if len = F.wordBits ∧ w < 2 ^ len then .ok (decodeWord F (BitVec.ofNat F.wordBits w))
  else .error .wrongLength

/-- The operation code of each instruction (30_encoding.md R52). -/
def Instr.opcode : Instr → BitVec 4
  | .pass _ => 0x0
  | .neg _ => 0x1
  | .rlen _ => 0x2
  | .dec _ => 0x3
  | .pack _ _ _ => 0x4
  | .round _ _ _ _ => 0x5
  | .enc _ _ _ _ _ => 0x6
  | .reserved7 => 0x7
  | .mul _ _ => 0x8
  | .div _ _ => 0x9
  | .eq _ _ => 0xA
  | .le _ _ => 0xB
  | .lt _ _ => 0xC
  | .gt _ _ => 0xD
  | .reservedE => 0xE
  | .reservedF => 0xF

/-- The request format of each instruction (30_encoding.md R51, R52). -/
def Instr.format : Instr → OperandFormat
  | .pass _ | .neg _ | .rlen _ | .dec _ => .r1
  | .mul _ _ | .div _ _ | .eq _ _ | .le _ _ | .lt _ _ | .gt _ _ => .r2
  | .pack _ _ _ => .fp
  | .round _ _ _ _ => .fr
  | .enc _ _ _ _ _ => .fe
  | .reserved7 | .reservedE | .reservedF => .none

/-- The canonical request of an instruction: its operands on the ports of its format, every other operand port 0
(30_encoding.md R53, R54). -/
def Instr.request (F : Format) (i : Instr) : Request F :=
  let r : Request F := { Request.zero F with op := i.opcode }
  match i with
  | .pass a | .neg a | .rlen a | .dec a => { r with a := BitVec.ofNat _ a }
  | .pack k e ff => { r with fk := BitVec.ofInt _ k, fe := BitVec.ofNat _ e, ff := BitVec.ofNat _ ff }
  | .round p bnp1 more sticky =>
    { r with fp := BitVec.ofNat _ p, rBnp1 := bnp1, rMore := more, rSticky := sticky }
  | .enc sign k e ff sticky =>
    { r with fs := sign, fk := BitVec.ofInt _ k, fe := BitVec.ofNat _ e, ff := BitVec.ofNat _ ff, rSticky := sticky }
  | .mul a b | .div a b | .eq a b | .le a b | .lt a b | .gt a b =>
    { r with a := BitVec.ofNat _ a, b := BitVec.ofNat _ b }
  | .reserved7 | .reservedE | .reservedF => r

/-- The request word of an instruction. -/
def encode (F : Format) (i : Instr) : BitVec F.wordBits :=
  (i.request F).toWord

/-- Two requests that carry the same operation code and agree on every port of the given request format
(30_encoding.md R51). -/
def Request.AgreeOn {F : Format} (f : OperandFormat) (r t : Request F) : Prop :=
  r.op = t.op ∧
    match f with
    | .r1 => r.a = t.a
    | .r2 => r.a = t.a ∧ r.b = t.b
    | .fp => r.fk = t.fk ∧ r.fe = t.fe ∧ r.ff = t.ff
    | .fr => r.fp = t.fp ∧ r.rBnp1 = t.rBnp1 ∧ r.rMore = t.rMore ∧ r.rSticky = t.rSticky
    | .fe => r.fs = t.fs ∧ r.fk = t.fk ∧ r.fe = t.fe ∧ r.ff = t.ff ∧ r.rSticky = t.rSticky
    | .none => True

/-- The request that a word numbered as spec/opcode_table.json numbers it stands for: the table gives a row bits 3..0,
which are the port `op`, and no operand bits, so every operand port is 0 (log 5). -/
def tableRequest (F : Format) (nbits w : Nat) : Request F :=
  { Request.zero F with op := BitVec.ofNat 4 (w % 2 ^ nbits) }

/-- The instruction the decoder reads from a table word, its request laid out as a request word of the reference
instance (log 5). -/
def decodeTableWord (nbits w : Nat) : Option Instr :=
  some (decodeWord Format.reference (tableRequest Format.reference nbits w).toWord)

end Sys2Proof
end

