-- ==== Sys2Proof/Machine/State.lean ====
section
/-! DEFINITION. The response ports (10_state.md R25), one sample of the request ports (R24), the state, the fault and
refusal types, and the state after reset (10_state.md R33, 70_reset_and_hazards.md R190). -/

namespace Sys2Proof.Machine

/-- The response ports (10_state.md R25). -/
structure Response (F : Format) where
  rspValid : Bool
  err : Bool
  ecode : BitVec 2
  z : Pattern F
  flag : Bool
  dSign : Bool
  dRs : Bool
  dM : LengthPort F
  dTerm : Bool
  dK : RegimePort F
  dE : ExponentPort F
  dEl : LengthPort F
  dF : BitVec F.FW
  dFl : LengthPort F
  dZero : Bool
  dNar : Bool
  p : Body F
  bnp1 : Bool
  more : Bool
  sat : Bool
  inc : Bool
  ovf : Bool
  deriving DecidableEq, Repr

/-- Every response port 0 (10_state.md R33, 70_reset_and_hazards.md R190). -/
def Response.zero (F : Format) : Response F where
  rspValid := false
  err := false
  ecode := 0
  z := 0
  flag := false
  dSign := false
  dRs := false
  dM := 0
  dTerm := false
  dK := 0
  dE := 0
  dEl := 0
  dF := 0
  dFl := 0
  dZero := false
  dNar := false
  p := 0
  bnp1 := false
  more := false
  sat := false
  inc := false
  ovf := false

/-- The response every operation starts from: `rsp <- all ports 0; rsp.rsp_valid <- 1` (30_encoding.md R55, R56). -/
def Response.start (F : Format) : Response F :=
  { Response.zero F with rspValid := true }

/-- One sample of the input ports: `rst`, `req_valid` and the request ports (10_state.md R24). -/
structure Sample (F : Format) where
  rst : Bool
  reqValid : Bool
  req : Request F
  deriving DecidableEq, Repr

/-- The state. The spec gives the block no architectural state (10_state.md R20): what is held is the static parameters,
what the host drives on the input ports, what the block presents on the output ports, and the model's own counter of
idle cycles. -/
structure State where
  /-- The static parameters (W, ES) (00_scope.md R6, R7; log 1). -/
  fmt : Format
  /-- What the host drives on the input ports, the present sample first; past the end nothing is presented (log 2). -/
  inputs : List (Sample fmt)
  /-- The response ports (10_state.md R25). -/
  rsp : Response fmt
  /-- The model's own: how many idle cycles there have been; names the free values of the next one (log 3). -/
  idleCount : Nat
  deriving DecidableEq, Repr

/-- Reasons for the machine to stop with a fault: none. "No value-level operation raises an exception"
(60_exceptions.md R170), and a reserved operation code is answered in band (R176), so nothing raises one (log 7). -/
inductive Fault where
  deriving DecidableEq, Repr

/-- Reasons to refuse an instruction. -/
inductive Refusal where
  /-- The host's name for an instruction with no meaning yet. Raised by no arm of `exec`. Safe: it stops the run. -/
  | notModelled (mnemonic : String)
  deriving DecidableEq, Repr

/-- The machine right after reset: the reference instance (log 1), nothing presented on the request ports (log 2), every
response port 0 (70_reset_and_hazards.md R190; log 6), no idle cycle yet (log 3). -/
def State.reset : State where
  fmt := Format.reference
  inputs := []
  rsp := Response.zero Format.reference
  idleCount := 0

end Sys2Proof.Machine
end

