-- ==== Sys2Proof/Machine/Ops.lean ====
section
/-! DEFINITION. The shared operations on the state: presenting a response, refusing a request in band (the one exception
the spec has, 60_exceptions.md R176), and the cycles that answer no request (reset and idle). -/

namespace Sys2Proof.Machine

/-- The state with the response on the response ports and everything else as it was. -/
def State.present (s : State) (r : Response s.fmt) : State :=
  { s with rsp := r }

/-- Answering a request: the next state presents the response (30_encoding.md R55, 20_memory.md R44). -/
def State.answer (s : State) (r : Response s.fmt) : Host.Outcome State Fault Refusal :=
  .next (s.present r)

/-- Taking the one exception: `raise ReservedOp(code)` writes `err <- 1`, `ecode <- code` and leaves every other response
port 0 (00_scope.md R13, 60_exceptions.md R176). No state is saved and control goes nowhere (R179), so there is no
return from it (R180). -/
def State.raiseReservedOp (s : State) (code : BitVec 2) : Host.Outcome State Fault Refusal :=
  s.answer { Response.start s.fmt with err := true, ecode := code }

/-- The present sample taken off the request ports: each sample is evaluated once (30_encoding.md R55). -/
def State.consume (s : State) : State :=
  { s with inputs := s.inputs.tail }

/-- A cycle with `rst` = 1: no request is accepted and every response port is 0 (70_reset_and_hazards.md R190). -/
def State.underReset (s : State) : State :=
  s.present (Response.zero s.fmt)

/-- The response ports of an idle cycle: `rsp_valid` = 0 (30_encoding.md R55) and every other port a free value
(93_implementation_defined.md U12; log 3). -/
def idleResponse (F : Format) (cycle : Nat) : Response F where
  rspValid := false
  err := (Config.idlePort cycle 1).testBit 0
  ecode := BitVec.ofNat _ (Config.idlePort cycle 2)
  z := BitVec.ofNat _ (Config.idlePort cycle 3)
  flag := (Config.idlePort cycle 4).testBit 0
  dSign := (Config.idlePort cycle 5).testBit 0
  dRs := (Config.idlePort cycle 6).testBit 0
  dM := BitVec.ofNat _ (Config.idlePort cycle 7)
  dTerm := (Config.idlePort cycle 8).testBit 0
  dK := BitVec.ofNat _ (Config.idlePort cycle 9)
  dE := BitVec.ofNat _ (Config.idlePort cycle 10)
  dEl := BitVec.ofNat _ (Config.idlePort cycle 11)
  dF := BitVec.ofNat _ (Config.idlePort cycle 12)
  dFl := BitVec.ofNat _ (Config.idlePort cycle 13)
  dZero := (Config.idlePort cycle 14).testBit 0
  dNar := (Config.idlePort cycle 15).testBit 0
  p := BitVec.ofNat _ (Config.idlePort cycle 16)
  bnp1 := (Config.idlePort cycle 17).testBit 0
  more := (Config.idlePort cycle 18).testBit 0
  sat := (Config.idlePort cycle 19).testBit 0
  inc := (Config.idlePort cycle 20).testBit 0
  ovf := (Config.idlePort cycle 21).testBit 0

/-- A cycle with no request: nothing is evaluated and `rsp_valid` = 0 (30_encoding.md R55). -/
def State.idle (s : State) : State :=
  { s with rsp := idleResponse s.fmt s.idleCount, idleCount := s.idleCount + 1 }

end Sys2Proof.Machine
end

