-- ==== Sys2Proof/Machine/Operands.lean ====
section
/-! DEFINITION. Operand assembly (30_encoding.md R54): each operand is a whole port. An instruction writes its operands as
numbers; these put a number on the port of its kind. A number that fits the port (`Instr.wellFormed`) is the port's value;
the decoder produces no other (log 9). -/

namespace Sys2Proof.Machine

/-- The ports `a` and `b`: a W-bit raw pattern. -/
def patternOperand (F : Format) (a : Nat) : Pattern F := BitVec.ofNat F.W a

/-- The port `fk`: a KW-bit two's-complement regime value. -/
def regimeOperand (F : Format) (k : Int) : RegimePort F := BitVec.ofInt F.KW k

/-- The port `fe`: an unsigned ES-bit exponent, 0 when ES = 0. -/
def exponentOperand (F : Format) (e : Nat) : ExponentPort F := BitVec.ofNat F.ES e

/-- The port `ff`: the fraction ff / 2^(2W). -/
def fractionOperand (F : Format) (ff : Nat) : FractionPort F := BitVec.ofNat (2 * F.W) ff

/-- The port `fp`: an unsigned (W−1)-bit body. -/
def bodyOperand (F : Format) (p : Nat) : Body F := BitVec.ofNat (F.W - 1) p

end Sys2Proof.Machine
end

