-- ==== Sys2Proof/Machine/Flags.lean ====
section
/-! DEFINITION. The flag-like values of a response (10_state.md R23): the sticky accumulation and the increment of the
rounding engine (41_rounding_engine.md R100, R101) and the two relations of the comparator (43_comparator.md R150). -/

namespace Sys2Proof.Machine

/-- `rs_accumulate(more, s) = more | s` (41_rounding_engine.md R100). -/
def rsAccumulate (more s : Bool) : Bool := more || s

/-- `rne_inc(lowbit, bnp1, more) = bnp1 & (lowbit | more)` (41_rounding_engine.md R101). -/
def rneInc (lowbit bnp1 more : Bool) : Bool := bnp1 && (lowbit || more)

/-- The order of the comparator: `signed_W(a) ≤ signed_W(b)` (43_comparator.md R150). -/
def orderLe {w : Nat} (a b : BitVec w) : Bool := decide (a.toInt ≤ b.toInt)

/-- The strict part of the order: `signed_W(a) < signed_W(b)` (43_comparator.md R155). -/
def orderLt {w : Nat} (a b : BitVec w) : Bool := decide (a.toInt < b.toInt)

/-- The equality of the comparator: bit for bit, and not NAR (43_comparator.md R150). -/
def equalNotNar {w : Nat} (a b : BitVec w) : Bool := decide (a = b) && decide (a ≠ nar w)

end Sys2Proof.Machine
end

