-- ==== Sys2Proof/Machine/FieldCodec.lean ====
section
/-! DEFINITION. The field codec (40_field_codec.md): the functions `neg_W`, `run`, `decompose` and `pack_fields`, for patterns
of any width `w` and exponent width `es`, and the operations PASS, NEG, RLEN, DEC and PACK. -/

namespace Sys2Proof.Machine

/-- `neg_W(x) = (2^W − x) mod 2^W` (40_field_codec.md R72). -/
def negW {w : Nat} (x : BitVec w) : BitVec w := BitVec.ofNat w (2 ^ w - x.toNat)

/-- What `run` returns (40_field_codec.md R74). -/
structure Run where
  rs : Bool
  m : Nat
  term : Bool
  k : Int
  deriving DecidableEq, Repr

/-- How many of the bits x[i−1], x[i−2], ..., x[0] equal `rs`, counted from the top until one does not. -/
def countRun {w : Nat} (x : BitVec w) (rs : Bool) : Nat → Nat
  | 0 => 0
  | i + 1 => if x.getLsbD i = rs then countRun x rs i + 1 else 0

/-- `run(x)`: the regime run of the body x[W−2:0] (40_field_codec.md R74). -/
def run {w : Nat} (x : BitVec w) : Run :=
  let rs := x.getLsbD (w - 2)
  let m := countRun x rs (w - 1)
  { rs := rs, m := m, term := decide (m < w - 1), k := if rs then (m : Int) - 1 else -(m : Int) }

/-- The decomposed posit, the record `Dec` (10_state.md R28). -/
structure Dec where
  sign : Bool
  rs : Bool
  m : Nat
  term : Bool
  k : Int
  e : Nat
  el : Nat
  f : Nat
  fl : Nat
  zero : Bool
  nar : Bool
  deriving DecidableEq, Repr

/-- `decompose(x)` for exponent width `es` (40_field_codec.md R76). -/
def decompose {w : Nat} (es : Nat) (x : BitVec w) : Dec :=
  let sign := x.getLsbD (w - 1)
  let mag := if sign then negW x else x
  let r := run mag
  let rem := w - 1 - r.m - r.term.toNat
  let el := min es rem
  let fl := rem - el
  let tail := mag.toNat % 2 ^ rem
  let eb := tail >>> fl
  { sign := sign, rs := r.rs, m := r.m, term := r.term, k := r.k, e := eb <<< (es - el), el := el,
    f := tail % 2 ^ fl, fl := fl, zero := decide (x = zeroPat w), nar := decide (x = nar w) }

/-- The significand `sig = 2^FW + (f << (FW − fl))` of a decomposed operand, FW = w − 3 (40_field_codec.md R79). -/
def Dec.sig (w : Nat) (d : Dec) : Nat := 2 ^ (w - 3) + d.f <<< (w - 3 - d.fl)

/-- The binary scale `k·2^ES + e` of a decomposed operand (10_state.md R31). -/
def Dec.scale (es : Nat) (d : Dec) : Int := d.k * 2 ^ es + d.e

/-- What `pack_fields` returns (40_field_codec.md R80). -/
structure Packed (w : Nat) where
  p : BitVec (w - 1)
  bnp1 : Bool
  more : Bool
  sat : Bool
  deriving DecidableEq, Repr

/-- The run length `regA` of the regime value k (40_field_codec.md R80). -/
def regA (k : Int) : Nat := if 0 ≤ k then (k + 1).toNat else (-k).toNat

/-- The unrounded bit string X: the regime run, its terminator, the exponent and the 2·W fraction bits
(40_field_codec.md R80). -/
def unrounded (w es : Nat) (k : Int) (e ff : Nat) : Nat :=
  let rt := if 0 ≤ k then 2 ^ (regA k + 1) - 2 else 1
  ((rt <<< es + e) <<< (2 * w)) + ff

/-- n, the number of bits of the unrounded string that do not fit (40_field_codec.md R80). -/
def discarded (w es : Nat) (k : Int) : Nat := regA k + es + w + 2

/-- `pack_fields(k, e, ff)`, with the field-width borrowing rule (40_field_codec.md R80 to R83). -/
def packFields (w es : Nat) (k : Int) (e ff : Nat) : Packed w :=
  if maxReg w < regA k then
    { p := (if 0 ≤ k then maxpos w else minpos w).setWidth (w - 1), bnp1 := false, more := false, sat := true }
  else
    let x := unrounded w es k e ff
    let n := discarded w es k
    { p := BitVec.ofNat (w - 1) (x >>> n), bnp1 := x.testBit (n - 1), more := decide (x % 2 ^ (n - 1) ≠ 0),
      sat := false }

/-- PASS: `z <- a` (40_field_codec.md R70). -/
def execPass (a : Nat) (s : State) : Host.Outcome State Fault Refusal :=
  s.answer { Response.start s.fmt with z := patternOperand s.fmt a }

/-- NEG: `z <- neg_W(a)` (40_field_codec.md R73). -/
def execNeg (a : Nat) (s : State) : Host.Outcome State Fault Refusal :=
  s.answer { Response.start s.fmt with z := negW (patternOperand s.fmt a) }

/-- RLEN: the regime run of `a`, whose sign bit is ignored (40_field_codec.md R75). -/
def execRlen (a : Nat) (s : State) : Host.Outcome State Fault Refusal :=
  let r := run (patternOperand s.fmt a)
  s.answer { Response.start s.fmt with
    dRs := r.rs, dM := BitVec.ofNat _ r.m, dTerm := r.term, dK := BitVec.ofInt _ r.k }

/-- The response of DEC (40_field_codec.md R77): the fields of the decomposed pattern, the fraction left-aligned. -/
def decResponse (F : Format) (d : Dec) : Response F :=
  { Response.start F with
    dSign := d.sign, dRs := d.rs, dM := BitVec.ofNat _ d.m, dTerm := d.term, dK := BitVec.ofInt _ d.k,
    dE := BitVec.ofNat _ d.e, dEl := BitVec.ofNat _ d.el, dF := BitVec.ofNat _ (d.f <<< (F.FW - d.fl)),
    dFl := BitVec.ofNat _ d.fl, dZero := d.zero, dNar := d.nar }

/-- DEC: decompose `a` (40_field_codec.md R77, R78). -/
def execDec (a : Nat) (s : State) : Host.Outcome State Fault Refusal :=
  s.answer (decResponse s.fmt (decompose s.fmt.ES (patternOperand s.fmt a)))

/-- PACK: pack the fields and report the round/sticky pair (40_field_codec.md R82). -/
def execPack (k : Int) (e ff : Nat) (s : State) : Host.Outcome State Fault Refusal :=
  let r := packFields s.fmt.W s.fmt.ES (regimeOperand s.fmt k).toInt (exponentOperand s.fmt e).toNat
    (fractionOperand s.fmt ff).toNat
  s.answer { Response.start s.fmt with
    p := r.p, z := r.p.setWidth s.fmt.W, bnp1 := r.bnp1, more := r.more, sat := r.sat }

end Sys2Proof.Machine
end

