-- ==== Sys2Proof/Machine/Rounding.lean ====
section
/-! DEFINITION. The rounding engine (41_rounding_engine.md): `round_apply`, the tail `encode_round` shared by every
arithmetic operation, and the operations ROUND and ENC. -/

namespace Sys2Proof.Machine

/-- What `round_apply` returns (41_rounding_engine.md R104). -/
structure Rounded (w : Nat) where
  z : BitVec w
  inc : Bool
  ovf : Bool
  more : Bool
  deriving DecidableEq, Repr

/-- `round_apply(p, bnp1, more, s)`: the increment is applied to the full packed integer, and suppressed at MAXPOS
(41_rounding_engine.md R104, R106). -/
def roundApply {w : Nat} (p : BitVec (w - 1)) (bnp1 more s : Bool) : Rounded w :=
  let more' := rsAccumulate more s
  let inc := rneInc (p.getLsbD 0) bnp1 more'
  let body := p.setWidth w
  if inc = true ∧ body = maxpos w then
    { z := maxpos w, inc := inc, ovf := true, more := more' }
  else
    let z := body + BitVec.ofNat w inc.toNat
    { z := z, inc := inc, ovf := decide ((run z).k ≠ (run body).k), more := more' }

/-- What `encode_round` returns (41_rounding_engine.md R107). -/
structure Encoded (w : Nat) where
  z : BitVec w
  p : BitVec (w - 1)
  bnp1 : Bool
  more : Bool
  sat : Bool
  inc : Bool
  ovf : Bool
  deriving DecidableEq, Repr

/-- `encode_round(s, k, e, ff, st)`: pack, round, restore the sign (41_rounding_engine.md R107). -/
def encodeRound (w es : Nat) (s : Bool) (k : Int) (e ff : Nat) (st : Bool) : Encoded w :=
  let c := packFields w es k e ff
  let r := roundApply c.p c.bnp1 c.more st
  { z := if s then negW r.z else r.z, p := c.p, bnp1 := c.bnp1, more := r.more, sat := c.sat, inc := r.inc,
    ovf := r.ovf }

/-- ROUND: sticky accumulation, round to nearest even on the full body, overflow report (41_rounding_engine.md R105). -/
def execRound (p : Nat) (bnp1 more sticky : Bool) (s : State) : Host.Outcome State Fault Refusal :=
  let r : Rounded s.fmt.W := roundApply (bodyOperand s.fmt p) bnp1 more sticky
  s.answer { Response.start s.fmt with z := r.z, inc := r.inc, ovf := r.ovf, more := r.more }

/-- ENC: pack, round and restore the sign, with the intermediate bits presented (41_rounding_engine.md R108). -/
def execEnc (sign : Bool) (k : Int) (e ff : Nat) (sticky : Bool) (s : State) : Host.Outcome State Fault Refusal :=
  let r := encodeRound s.fmt.W s.fmt.ES sign (regimeOperand s.fmt k).toInt (exponentOperand s.fmt e).toNat
    (fractionOperand s.fmt ff).toNat sticky
  s.answer { Response.start s.fmt with
    z := r.z, p := r.p, bnp1 := r.bnp1, more := r.more, sat := r.sat, inc := r.inc, ovf := r.ovf }

end Sys2Proof.Machine
end

