-- ==== Sys2Proof/Machine/Arithmetic.lean ====
section
/-! DEFINITION. The arithmetic engine (42_multiply_divide.md): `posit_mul`, `posit_div` and the operations MUL and DIV. The
product, the quotient and the remainder are exact integers (70_reset_and_hazards.md R196). -/

namespace Sys2Proof.Machine

/-- The finite path of `posit_mul`, for operands that are neither NAR nor ZERO (42_multiply_divide.md R121). -/
def mulFinite {w : Nat} (es : Nat) (a b : BitVec w) : Encoded w :=
  let da := decompose es a
  let db := decompose es b
  let fw := w - 3
  let prod := da.sig w * db.sig w
  let rcarry := prod.testBit (2 * fw + 1)
  let scale := da.scale es + db.scale es + (rcarry.toNat : Int)
  let fracn := if rcarry then prod % 2 ^ (2 * fw + 1) else (prod % 2 ^ (2 * fw)) <<< 1
  encodeRound w es (xor da.sign db.sign) (scale / 2 ^ es) (scale % 2 ^ es).toNat (fracn <<< 5) false

/-- `posit_mul(a, b)`: the special patterns first, NaR before Zero (42_multiply_divide.md R120, R121). -/
def positMul {w : Nat} (es : Nat) (a b : BitVec w) : BitVec w :=
  if a = nar w ∨ b = nar w then nar w
  else if a = zeroPat w ∨ b = zeroPat w then zeroPat w
  else (mulFinite es a b).z

/-- The finite path of `posit_div`, for operands that are neither NAR nor ZERO (42_multiply_divide.md R131). -/
def divFinite {w : Nat} (es : Nat) (a b : BitVec w) : Encoded w :=
  let da := decompose es a
  let db := decompose es b
  let num := da.sig w <<< quotientBits w
  let q := num / db.sig w
  let r := num % db.sig w
  let ge := decide (2 ^ w ≤ q)
  let scale := da.scale es - db.scale es - (1 - (ge.toNat : Int))
  let fracn := if ge then q % 2 ^ w else (q % 2 ^ (w - 1)) <<< 1
  encodeRound w es (xor da.sign db.sign) (scale / 2 ^ es) (scale % 2 ^ es).toNat (fracn <<< w) (decide (r ≠ 0))

/-- `posit_div(a, b)`: NaR, then a zero divisor, then a zero dividend, then the finite path (42_multiply_divide.md R130,
R131). -/
def positDiv {w : Nat} (es : Nat) (a b : BitVec w) : BitVec w :=
  if a = nar w ∨ b = nar w then nar w
  else if b = zeroPat w then nar w
  else if a = zeroPat w then zeroPat w
  else (divFinite es a b).z

/-- MUL: `z <- posit_mul(a, b)` (42_multiply_divide.md R122). -/
def execMul (a b : Nat) (s : State) : Host.Outcome State Fault Refusal :=
  s.answer { Response.start s.fmt with
    z := positMul s.fmt.ES (patternOperand s.fmt a) (patternOperand s.fmt b) }

/-- DIV: `z <- posit_div(a, b)` (42_multiply_divide.md R132). -/
def execDiv (a b : Nat) (s : State) : Host.Outcome State Fault Refusal :=
  s.answer { Response.start s.fmt with
    z := positDiv s.fmt.ES (patternOperand s.fmt a) (patternOperand s.fmt b) }

end Sys2Proof.Machine
end

