-- ==== Sys2Proof/Machine/Comparator.lean ====
section
/-! DEFINITION. The comparator (43_comparator.md): EQ, LE, LT and GT write the one port `flag`. -/

namespace Sys2Proof.Machine

/-- EQ: bit-identical and not NaR (43_comparator.md R151). -/
def execEq (a b : Nat) (s : State) : Host.Outcome State Fault Refusal :=
  s.answer { Response.start s.fmt with
    flag := equalNotNar (patternOperand s.fmt a) (patternOperand s.fmt b) }

/-- LE: the signed order, NaR its least element (43_comparator.md R153, R154). -/
def execLe (a b : Nat) (s : State) : Host.Outcome State Fault Refusal :=
  s.answer { Response.start s.fmt with
    flag := orderLe (patternOperand s.fmt a) (patternOperand s.fmt b) }

/-- LT: the strict signed order (43_comparator.md R155). -/
def execLt (a b : Nat) (s : State) : Host.Outcome State Fault Refusal :=
  s.answer { Response.start s.fmt with
    flag := orderLt (patternOperand s.fmt a) (patternOperand s.fmt b) }

/-- GT: LT with the operands swapped (43_comparator.md R157). -/
def execGt (a b : Nat) (s : State) : Host.Outcome State Fault Refusal :=
  s.answer { Response.start s.fmt with
    flag := orderLt (patternOperand s.fmt b) (patternOperand s.fmt a) }

end Sys2Proof.Machine
end

