-- ==== Sys2Proof/Machine/Reserved.lean ====
section
/-! DEFINITION. The three reserved operation codes: each is refused in band with ReservedOp, error code 1
(30_encoding.md R57, 60_exceptions.md R176). -/

namespace Sys2Proof.Machine

/-- The operation code 0x7. -/
def execReserved7 (s : State) : Host.Outcome State Fault Refusal := s.raiseReservedOp 1

/-- The operation code 0xE. -/
def execReservedE (s : State) : Host.Outcome State Fault Refusal := s.raiseReservedOp 1

/-- The operation code 0xF. -/
def execReservedF (s : State) : Host.Outcome State Fault Refusal := s.raiseReservedOp 1

end Sys2Proof.Machine
end

