-- ==== Sys2Proof/Machine/Dispatch.lean ====
section
/-! DEFINITION. The dispatch of one decoded request to its meaning (30_encoding.md R55). -/

namespace Sys2Proof.Machine

def exec (i : Instr) (s : State) : Host.Outcome State Fault Refusal :=
  match i with
  | .pass a => Sys2Proof.Machine.execPass a s
  | .neg a => Sys2Proof.Machine.execNeg a s
  | .rlen a => Sys2Proof.Machine.execRlen a s
  | .dec a => Sys2Proof.Machine.execDec a s
  | .pack k e ff => Sys2Proof.Machine.execPack k e ff s
  | .round p bnp1 more sticky => Sys2Proof.Machine.execRound p bnp1 more sticky s
  | .enc sign k e ff sticky => Sys2Proof.Machine.execEnc sign k e ff sticky s
  | .reserved7 => Sys2Proof.Machine.execReserved7 s
  | .mul a b => Sys2Proof.Machine.execMul a b s
  | .div a b => Sys2Proof.Machine.execDiv a b s
  | .eq a b => Sys2Proof.Machine.execEq a b s
  | .le a b => Sys2Proof.Machine.execLe a b s
  | .lt a b => Sys2Proof.Machine.execLt a b s
  | .gt a b => Sys2Proof.Machine.execGt a b s
  | .reservedE => Sys2Proof.Machine.execReservedE s
  | .reservedF => Sys2Proof.Machine.execReservedF s

end Sys2Proof.Machine
end

