-- ==== Sys2Proof/Machine/Value.lean ====
section
/-! DEFINITION. The reference function `val` (10_state.md R31) and the rounding it is the measure of (41_rounding_engine.md
R109 item 7). The hardware computes neither; rules of the spec are stated with them. -/

namespace Sys2Proof.Machine

/-- `val(x)` for exponent width `es`: `none` stands for NaR (10_state.md R31). -/
def val {w : Nat} (es : Nat) (x : BitVec w) : Option ℚ :=
  if x = nar w then none
  else if x = zeroPat w then some 0
  else
    let d := decompose es x
    some ((if d.sign then -1 else 1) * 2 ^ d.scale es * (1 + (d.f : ℚ) / 2 ^ d.fl))

/-- The magnitude that the fields k, e and ff stand for: 2^(k·2^ES + e) · (1 + ff/2^(2W)) (40_field_codec.md R84 item 3,
41_rounding_engine.md R107). -/
def fieldsValue (w es : Nat) (k : Int) (e ff : Nat) : ℚ :=
  2 ^ (k * 2 ^ es + e : Int) * (1 + (ff : ℚ) / 2 ^ (2 * w))

/-- The positive pattern `z` is the pattern-nearest, ties-to-even rounding of the positive real `v`: outside the range
MINPOS to MAXPOS it saturates (60_exceptions.md R173), and between two adjacent patterns x and x + 1 the tie point is the
value of the (W+1)-bit pattern 2x + 1 between them (41_rounding_engine.md R109 items 1, 2 and 7). -/
def RoundsMagnitude {w : Nat} (es : Nat) (v : ℚ) (z : BitVec w) : Prop :=
  (∀ lo, val es (minpos w) = some lo → v ≤ lo → z = minpos w) ∧
  (∀ hi, val es (maxpos w) = some hi → hi ≤ v → z = maxpos w) ∧
  ∀ x : BitVec w, 0 < x.toNat → x.toNat + 1 < 2 ^ (w - 1) →
    ∀ lo mid hi, val es x = some lo → val es (BitVec.ofNat (w + 1) (2 * x.toNat + 1)) = some mid →
      val es (x + 1) = some hi → lo ≤ v → v ≤ hi →
        (v < mid → z = x) ∧ (mid < v → z = x + 1) ∧ (v = mid → z = if x.toNat % 2 = 0 then x else x + 1)

/-- The same for a non-zero real of either sign: rounding is done on the magnitude (41_rounding_engine.md R109 item 4). -/
def RoundsTo {w : Nat} (es : Nat) (v : ℚ) (z : BitVec w) : Prop :=
  (0 < v → RoundsMagnitude es v z) ∧ (v < 0 → RoundsMagnitude es (-v) (negW z))

end Sys2Proof.Machine
end

