-- ==== Sys2Proof/Machine/Step.lean ====
section
/-! DEFINITION. One step: the block samples the input ports once (30_encoding.md R55, 70_reset_and_hazards.md R190, R195)
and presents what follows from that sample on the response ports. -/

namespace Sys2Proof.Machine

/-- One step. Under `rst` no request is accepted (70_reset_and_hazards.md R190); a valid request is decoded and executed;
without a request nothing is evaluated (30_encoding.md R55). -/
def step (s : State) : Host.Outcome State Fault Refusal :=
  match s.inputs with
  | [] => .next s.idle
  | x :: _ =>
    if x.rst then .next s.consume.underReset
    else if x.reqValid then exec (decode x.req) s.consume
    else .next s.consume.idle

/-- A table word's request presented on the input ports as the present sample, with `rst` = 0 and `req_valid` = 1
(log 2, log 5). -/
def State.withFetchWord (s : State) (nbits w : Nat) : State :=
  { s with inputs := ⟨false, true, tableRequest s.fmt nbits w⟩ :: s.inputs.tail }

end Sys2Proof.Machine
end

