-- ==== Sys2Proof/Safety.lean ====
section
/-! DEFINITION. What counts as a sound response, the invariant that every step leaves, and the inputs that are requests. -/

namespace Sys2Proof.Machine

/-- The one refused response: `err` = 1, `ecode` = 1, every other port 0 (60_exceptions.md R174, R176). -/
def Response.refused (F : Format) : Response F :=
  { Response.start F with err := true, ecode := 1 }

/-- What holds of every response presented with `rsp_valid` = 1: the error code follows R174; the regime value and the
lengths are in the ranges of 10_state.md R25 and R26; a saturated body is MAXPOS or MINPOS and is left alone by the
rounding step (41_rounding_engine.md R109 item 2); the regime changes only by an increment (R106); no pattern is both
Zero and NaR (10_state.md R27). -/
structure Response.Sound {F : Format} (r : Response F) : Prop where
  error_code : if r.err then r = Response.refused F else r.ecode = 0
  regime_range : -((F.W : Int) - 1) ≤ r.dK.toInt ∧ r.dK.toInt ≤ (F.W : Int) - 2
  exponent_length : r.dEl.toNat ≤ F.ES
  fraction_length : r.dFl.toNat ≤ F.W - 3 - F.ES
  saturated_body : r.sat = true → (r.p.toNat = 2 ^ (F.W - 1) - 1 ∨ r.p.toNat = 1) ∧ r.inc = false
  overflow_increments : r.ovf = true → r.inc = true
  one_special : ¬(r.dZero = true ∧ r.dNar = true)

/-- The invariant of the state: a response that is presented is sound. -/
def State.Inv (s : State) : Prop :=
  s.rsp.rspValid = true → s.rsp.Sound

/-- A sample that presents a request: `req_valid` = 1 and not under reset (30_encoding.md R55, 70_reset_and_hazards.md
R190). -/
def Sample.IsRequest {F : Format} (x : Sample F) : Prop :=
  x.rst = false ∧ x.reqValid = true

end Sys2Proof.Machine

/-- An instruction whose operation code is not reserved (30_encoding.md R57). -/
def Sys2Proof.Instr.IsLegal (i : Sys2Proof.Instr) : Prop :=
  i ≠ .reserved7 ∧ i ≠ .reservedE ∧ i ≠ .reservedF
end

