-- ==== Sys2Proof/Certificates/Slice0/Obligations.lean ====
section
/-! DEFINITION. The statements for the provers. Each is a claim about every format (W, ES), and about every state where a
state occurs; the docstring names the rule of the spec it formalises. -/

open Sys2Proof Sys2Proof.Machine

/-! ## Construction, encoding and decoding -/

/-- R193: a pair (W, ES) is accepted exactly when W is 8, 16, 32 or 64 and ES ≤ W − 3, and the instance has that pair. -/
def Obligations.ConstructionAcceptsSupportedPairsOnly : Prop :=
  ∀ w es : Nat,
    ((w = 8 ∨ w = 16 ∨ w = 32 ∨ w = 64) ∧ es + 3 ≤ w →
      ∃ F : Format, Format.make? w es = some F ∧ F.W = w ∧ F.ES = es) ∧
    (¬((w = 8 ∨ w = 16 ∨ w = 32 ∨ w = 64) ∧ es + 3 ≤ w) → Format.make? w es = none)

/-- R52: the operation map. Each of the 16 codes of `op` selects its operation, with its format, whatever the other ports
hold. -/
def Obligations.OperationMapSelectsByOp : Prop :=
  ∀ (F : Format) (r : Request F),
    (decode r).opcode = r.op ∧
    (r.op = 0x0 → decode r = .pass r.a.toNat ∧ (decode r).format = .r1) ∧
    (r.op = 0x1 → decode r = .neg r.a.toNat ∧ (decode r).format = .r1) ∧
    (r.op = 0x2 → decode r = .rlen r.a.toNat ∧ (decode r).format = .r1) ∧
    (r.op = 0x3 → decode r = .dec r.a.toNat ∧ (decode r).format = .r1) ∧
    (r.op = 0x4 → decode r = .pack r.fk.toInt r.fe.toNat r.ff.toNat ∧ (decode r).format = .fp) ∧
    (r.op = 0x5 → decode r = .round r.fp.toNat r.rBnp1 r.rMore r.rSticky ∧ (decode r).format = .fr) ∧
    (r.op = 0x6 → decode r = .enc r.fs r.fk.toInt r.fe.toNat r.ff.toNat r.rSticky ∧ (decode r).format = .fe) ∧
    (r.op = 0x7 → decode r = .reserved7 ∧ (decode r).format = .none) ∧
    (r.op = 0x8 → decode r = .mul r.a.toNat r.b.toNat ∧ (decode r).format = .r2) ∧
    (r.op = 0x9 → decode r = .div r.a.toNat r.b.toNat ∧ (decode r).format = .r2) ∧
    (r.op = 0xA → decode r = .eq r.a.toNat r.b.toNat ∧ (decode r).format = .r2) ∧
    (r.op = 0xB → decode r = .le r.a.toNat r.b.toNat ∧ (decode r).format = .r2) ∧
    (r.op = 0xC → decode r = .lt r.a.toNat r.b.toNat ∧ (decode r).format = .r2) ∧
    (r.op = 0xD → decode r = .gt r.a.toNat r.b.toNat ∧ (decode r).format = .r2) ∧
    (r.op = 0xE → decode r = .reservedE ∧ (decode r).format = .none) ∧
    (r.op = 0xF → decode r = .reservedF ∧ (decode r).format = .none)

/-- R53, and 95_test_vectors.md section 2.10: request words of (8, 2), written out from the table of bit positions, decode
to the requests they stand for. The last clause, the name under which a string one bit too long is rejected, is the model's
own (log 8, DEDUCED from R50 and R53). -/
def Obligations.WrittenOutWordsDecode : Prop :=
  ∀ F : Format, Format.make? 8 2 = some F →
    decodeBits F 54 0x01740000000000 = .ok (.pass 0x5D) ∧
    decodeBits F 54 0x05740000000000 = .ok (.neg 0x5D) ∧
    decodeBits F 54 0x100001B8000000 = .ok (.pack (-5) 2 0) ∧
    decodeBits F 54 0x140000000002EC = .ok (.round 0x5D true false false) ∧
    decodeBits F 54 0x1800020EC00000 = .ok (.enc true 0 3 0xB000 false) ∧
    decodeBits F 54 0x2174D400000000 = .ok (.mul 0x5D 0x35) ∧
    decodeBits F 54 0x2174D7FFFFFFFF = .ok (.mul 0x5D 0x35) ∧
    decodeBits F 54 0x2E8CD400000000 = .ok (.le 0xA3 0x35) ∧
    decodeBits F 54 0x3E020000000000 = .ok .reservedF ∧
    decodeBits F 55 0x3E020000000000 = .error .wrongLength

/-- R53: the word is the concatenation of the ports and each port stands at its bit positions: taking the ports off a word
and putting them together again are inverse to each other. -/
def Obligations.RequestWordAndPortsAreInverse : Prop :=
  ∀ F : Format,
    (∀ r : Request F, Request.ofWord r.toWord = r) ∧
    (∀ w : BitVec F.wordBits, (Request.ofWord w).toWord = w)

/-- R53, R54: decoding the canonical word of a well-formed instruction gives the instruction back, for every instruction
and every value of every operand port. -/
def Obligations.DecodeInvertsEncode : Prop :=
  ∀ (F : Format) (i : Instr), i.wellFormed F = true →
    decodeWord F (encode F i) = i ∧ decodeBits F F.wordBits (encode F i).toNat = .ok i

/-- R53, R58: every word of the format's width decodes to a well-formed instruction, and its canonical word is one that
carries the same operation code, agrees with it on every port the operation reads and is 0 on the operand ports the
operation does not read. -/
def Obligations.EveryWordDecodesToAWellFormedInstruction : Prop :=
  ∀ (F : Format) (w : BitVec F.wordBits),
    (decodeWord F w).wellFormed F = true ∧
    Request.AgreeOn (decodeWord F w).format (Request.ofWord w) (Request.ofWord (encode F (decodeWord F w))) ∧
    (let f := (decodeWord F w).format
     let c : Request F := Request.ofWord (encode F (decodeWord F w))
     (f ≠ .r1 → f ≠ .r2 → c.a = 0) ∧ (f ≠ .r2 → c.b = 0) ∧ (f ≠ .fe → c.fs = false) ∧
     (f ≠ .fp → f ≠ .fe → c.fk = 0 ∧ c.fe = 0 ∧ c.ff = 0) ∧
     (f ≠ .fr → c.fp = 0 ∧ c.rBnp1 = false ∧ c.rMore = false) ∧ (f ≠ .fr → f ≠ .fe → c.rSticky = false))

/-- R51: a port outside the operation's format is ignored: two requests with the same `op` that agree on the ports of its
format are the same instruction, so a step answers them with the same response. -/
def Obligations.PortsOutsideTheFormatAreIgnored : Prop :=
  ∀ (F : Format) (r t : Request F), Request.AgreeOn (decode r).format r t →
    decode t = decode r ∧
    ∀ (rest : List (Sample F)) (u : Response F) (n : Nat),
      step ⟨F, ⟨false, true, t⟩ :: rest, u, n⟩ = step ⟨F, ⟨false, true, r⟩ :: rest, u, n⟩

/-! ## The step -/

/-- R55: with `req_valid` = 1 (and `rst` = 0) the step runs the decoded request on the state whose sample has been taken
off the ports, and the response has `rsp_valid` = 1; with `req_valid` = 0 nothing is evaluated and `rsp_valid` = 0. -/
def Obligations.StepRunsTheDecodedRequest : Prop :=
  ∀ (F : Format) (x : Sample F) (rest : List (Sample F)) (u : Response F) (n : Nat), x.rst = false →
    (x.reqValid = true →
      step ⟨F, x :: rest, u, n⟩ = exec (decode x.req) ⟨F, rest, u, n⟩ ∧
      ∃ v : Response F, exec (decode x.req) ⟨F, rest, u, n⟩ = .next ⟨F, rest, v, n⟩ ∧ v.rspValid = true) ∧
    (x.reqValid = false →
      ∃ (v : Response F) (m : Nat), step ⟨F, x :: rest, u, n⟩ = .next ⟨F, rest, v, m⟩ ∧ v.rspValid = false)

/-- R33, R190: while `rst` = 1 the block presents every response port 0 and accepts no request, and the first request after
reset is answered as any other request is. That `rst` acts in the very step that samples it, and that this sample is taken
off with its request ports not looked at, is the model's reading and no rule of the spec (log 10, DEDUCED). -/
def Obligations.ResetPresentsZeroAndLeavesNoTrace : Prop :=
  ∀ (F : Format) (x y : Sample F) (rest : List (Sample F)) (u v : Response F) (n : Nat), x.rst = true →
    step ⟨F, x :: rest, u, n⟩ = .next ⟨F, rest, Response.zero F, n⟩ ∧
    (y.IsRequest →
      Host.Core.run core 2 (State.mk F (x :: y :: rest) u n) = step ⟨F, y :: rest, v, n⟩)

/-- The state after reset, which is the model's and no rule of the spec: its response ports are 0 (log 6, DEDUCED: R33 and
R190 say so of the ports while `rst` = 1, not after it); it is the reference instance (64, 2) of R3, with nothing on its
request ports and no idle cycle counted (log 1, log 2, log 3, each a DESIGN CHOICE). -/
def Obligations.ResetStateIsAsNamed : Prop :=
  State.reset.fmt.W = 64 ∧ State.reset.fmt.ES = 2 ∧ State.reset.inputs = [] ∧
    State.reset.rsp = Response.zero State.reset.fmt ∧ State.reset.idleCount = 0

/-- No step stops (R44 and R177, with log 7, DEDUCED), and none changes the static parameters W and ES (R6, R23; that they
are a field of State is log 1, a DESIGN CHOICE). The other clauses are the model's choice: each step takes one sample off the
list of inputs and past its end nothing is presented, so that `rsp_valid` = 0 (log 2, DESIGN CHOICE), and the model's own
count of idle cycles never falls (log 3, DESIGN CHOICE). -/
def Obligations.EveryStepAnswersAndKeepsTheFormat : Prop :=
  ∀ s : State, ∃ (r : Response s.fmt) (n : Nat),
    step s = .next ⟨s.fmt, s.inputs.tail, r, n⟩ ∧ s.idleCount ≤ n ∧ (s.inputs = [] → r.rspValid = false)

/-- R20, R44: one function of (W, ES) and the request gives every response, whatever came before: after i + 1 steps the
block presents the answer to request i, in request order, each request answered once. -/
def Obligations.ResponsesInOrderFromTheRequestAlone : Prop :=
  ∃ respond : (F : Format) → Request F → Response F,
    ∀ (F : Format) (xs rest : List (Sample F)) (u : Response F) (n : Nat),
      (∀ x ∈ xs, x.IsRequest) →
      ∀ (i : Nat) (h : i < xs.length),
        Host.Core.run core (i + 1) (State.mk F (xs ++ rest) u n) =
          .next (State.mk F (xs.drop (i + 1) ++ rest) (respond F xs[i].req) n) ∧
        (respond F xs[i].req).rspValid = true

/-- R25, R26, R174: a response presented with `rsp_valid` = 1 is sound after every step, from every state. -/
def Obligations.EveryStepLeavesASoundResponse : Prop :=
  ∀ s t : State, s.Inv → step s = .next t → t.Inv

/-- The state after reset meets the invariant of `EveryStepLeavesASoundResponse` (R25, R26, R174). It rests on the model's
choice that State.reset presents no response, `rsp_valid` = 0, which no rule of the spec gives after `rst` has fallen
(log 6, DEDUCED). -/
def Obligations.ResetStateMeetsTheInvariant : Prop :=
  State.reset.Inv

/-! ## Errors and NaR -/

/-- R176: each reserved code, whatever the operand ports hold, is refused in band, and nothing but the response changes. -/
def Obligations.ReservedCodesAreRefusedInBand : Prop :=
  (∀ (s : State) (i : Instr), i = .reserved7 ∨ i = .reservedE ∨ i = .reservedF →
    exec i s = .next ⟨s.fmt, s.inputs, { Response.zero s.fmt with rspValid := true, err := true, ecode := 1 },
      s.idleCount⟩) ∧
  (∀ (F : Format) (x : Sample F) (rest : List (Sample F)) (u : Response F) (n : Nat), x.IsRequest →
    x.req.op = 0x7 ∨ x.req.op = 0xE ∨ x.req.op = 0xF →
    step ⟨F, x :: rest, u, n⟩ =
      .next ⟨F, rest, { Response.zero F with rspValid := true, err := true, ecode := 1 }, n⟩)

/-- R170: an operation with a legal code raises nothing, for every value of its operands: `err` = 0 and `ecode` = 0. -/
def Obligations.LegalOperationsRaiseNothing : Prop :=
  ∀ (s : State) (i : Instr), i.IsLegal →
    ∃ r : Response s.fmt, exec i s = .next ⟨s.fmt, s.inputs, r, s.idleCount⟩ ∧
      r.rspValid = true ∧ r.err = false ∧ r.ecode = 0

/-- R171: the complete list of the requests whose `z` is NAR. -/
def Obligations.NarArisesOnlyWhereListed : Prop :=
  ∀ (s : State) (i : Instr) (r : Response s.fmt), i.wellFormed s.fmt = true →
    exec i s = .next ⟨s.fmt, s.inputs, r, s.idleCount⟩ →
    (r.z = nar s.fmt.W ↔
      match i with
      | .mul a b => a = 2 ^ (s.fmt.W - 1) ∨ b = 2 ^ (s.fmt.W - 1)
      | .div a b => a = 2 ^ (s.fmt.W - 1) ∨ b = 2 ^ (s.fmt.W - 1) ∨ b = 0
      | .pass a => a = 2 ^ (s.fmt.W - 1)
      | .neg a => a = 2 ^ (s.fmt.W - 1)
      | _ => False)

/-! ## The field codec -/

/-- R70: PASS returns its operand, whatever pattern it is, and writes nothing else. -/
def Obligations.PassReturnsItsOperand : Prop :=
  ∀ (s : State) (a : Pattern s.fmt),
    exec (.pass a.toNat) s = .next ⟨s.fmt, s.inputs, { Response.start s.fmt with z := a }, s.idleCount⟩

/-- R73, with the definition of `neg_W` in R72: NEG returns (2^W − a) mod 2^W and writes nothing else; ZERO and NAR are
their own negations, MAXPOS gives 2^(W−1) + 1 and MINPOS gives 2^W − 1. -/
def Obligations.NegReturnsTheTwosComplement : Prop :=
  ∀ (s : State) (a : Pattern s.fmt), ∃ z : Pattern s.fmt,
    exec (.neg a.toNat) s = .next ⟨s.fmt, s.inputs, { Response.start s.fmt with z := z }, s.idleCount⟩ ∧
    z.toNat = (2 ^ s.fmt.W - a.toNat) % 2 ^ s.fmt.W ∧
    (a.toNat = 0 → z.toNat = 0) ∧
    (a.toNat = 2 ^ (s.fmt.W - 1) → z.toNat = 2 ^ (s.fmt.W - 1)) ∧
    (a.toNat = 2 ^ (s.fmt.W - 1) - 1 → z.toNat = 2 ^ (s.fmt.W - 1) + 1) ∧
    (a.toNat = 1 → z.toNat = 2 ^ s.fmt.W - 1)

/-- The properties of `neg_W` that R72 derives: it is its own inverse, flips the sign bit of every pattern but ZERO and NAR
and negates the value. -/
def Obligations.NegationLaws : Prop :=
  ∀ (F : Format) (x : Pattern F),
    negW (negW x) = x ∧
    (x ≠ zeroPat F.W → x ≠ nar F.W → (negW x).getLsbD (F.W - 1) = !x.getLsbD (F.W - 1)) ∧
    val F.ES (negW x) = (val F.ES x).map (fun v => -v)

/-- R75, with the definition of `run` in R74: RLEN reports the longest run of equal bits below the sign bit, whether a
terminator follows, and the regime value, on ports wide enough for them; the sign bit is ignored and nothing else is
written. -/
def Obligations.RlenReportsTheRegimeRun : Prop :=
  ∀ (s : State) (a : Pattern s.fmt), ∃ (rs term : Bool) (m : LengthPort s.fmt) (k : RegimePort s.fmt),
    exec (.rlen a.toNat) s =
      .next ⟨s.fmt, s.inputs, { Response.start s.fmt with dRs := rs, dM := m, dTerm := term, dK := k },
        s.idleCount⟩ ∧
    rs = a.getLsbD (s.fmt.W - 2) ∧
    1 ≤ m.toNat ∧ m.toNat ≤ s.fmt.W - 1 ∧
    (∀ j, j < m.toNat → a.getLsbD (s.fmt.W - 2 - j) = rs) ∧
    (term = true ↔ m.toNat < s.fmt.W - 1) ∧
    (term = true → a.getLsbD (s.fmt.W - 2 - m.toNat) = !rs) ∧
    k.toInt = if rs then (m.toNat : Int) - 1 else -(m.toNat : Int)

/-- R77: DEC presents the eleven fields of `decompose`, the fraction left-aligned, each port wide enough for its value, and
writes nothing else. -/
def Obligations.DecPresentsTheDecomposition : Prop :=
  ∀ (s : State) (a : Pattern s.fmt), ∃ r : Response s.fmt,
    exec (.dec a.toNat) s = .next ⟨s.fmt, s.inputs, r, s.idleCount⟩ ∧
    r.dSign = (decompose s.fmt.ES a).sign ∧ r.dRs = (decompose s.fmt.ES a).rs ∧
    r.dM.toNat = (decompose s.fmt.ES a).m ∧ r.dTerm = (decompose s.fmt.ES a).term ∧
    r.dK.toInt = (decompose s.fmt.ES a).k ∧ r.dE.toNat = (decompose s.fmt.ES a).e ∧
    r.dEl.toNat = (decompose s.fmt.ES a).el ∧
    r.dF.toNat = (decompose s.fmt.ES a).f * 2 ^ (s.fmt.FW - (decompose s.fmt.ES a).fl) ∧
    r.dFl.toNat = (decompose s.fmt.ES a).fl ∧
    r.dZero = decide (a = zeroPat s.fmt.W) ∧ r.dNar = decide (a = nar s.fmt.W) ∧
    { r with dSign := false, dRs := false, dM := 0, dTerm := false, dK := 0, dE := 0, dEl := 0, dF := 0, dFl := 0,
             dZero := false, dNar := false } = Response.start s.fmt

/-- The field layout of R29 and R76: the magnitude pattern is the regime run with its terminator, then the el exponent bits
present, then the fl fraction bits, with the borrowing priority regime > exponent > fraction. -/
def Obligations.DecomposedFieldsMakeUpTheMagnitude : Prop :=
  ∀ (F : Format) (x : Pattern F),
    let d := decompose F.ES x
    let rem := F.W - 1 - d.m - d.term.toNat
    let mag := if d.sign then negW x else x
    let regime := if d.rs then (if d.term then 2 ^ (d.m + 1) - 2 else 2 ^ d.m - 1) else (if d.term then 1 else 0)
    d.sign = x.getLsbD (F.W - 1) ∧ 1 ≤ d.m ∧ d.m + d.term.toNat ≤ F.W - 1 ∧
    d.el = min F.ES rem ∧ d.fl = rem - d.el ∧ d.f < 2 ^ d.fl ∧
    ∃ eb, eb < 2 ^ d.el ∧ d.e = eb * 2 ^ (F.ES - d.el) ∧
      (d.nar = false → mag.toNat = regime * 2 ^ rem + eb * 2 ^ d.fl + d.f)

/-- The corners of R78: the fields of ZERO, NAR, MAXPOS and MINPOS, the truncated exponent, and the negated pattern. -/
def Obligations.DecomposeAtItsCorners : Prop :=
  ∀ F : Format,
    decompose F.ES (zeroPat F.W) =
      ⟨false, false, F.W - 1, false, -((F.W : Int) - 1), 0, 0, 0, 0, true, false⟩ ∧
    decompose F.ES (nar F.W) =
      ⟨true, false, F.W - 1, false, -((F.W : Int) - 1), 0, 0, 0, 0, false, true⟩ ∧
    decompose F.ES (maxpos F.W) =
      ⟨false, true, F.W - 1, false, (F.W : Int) - 2, 0, 0, 0, 0, false, false⟩ ∧
    decompose F.ES (minpos F.W) =
      ⟨false, false, F.W - 2, true, -((F.W : Int) - 2), 0, 0, 0, 0, false, false⟩ ∧
    ∀ x : Pattern F,
      ((decompose F.ES x).el < F.ES → (decompose F.ES x).fl = 0) ∧
      (x ≠ zeroPat F.W → x ≠ nar F.W →
        decompose F.ES (negW x) = { decompose F.ES x with sign := !(decompose F.ES x).sign })

/-- R82: PACK presents what `pack_fields` makes of the three operand ports, `z` being the body with a 0 sign bit, and
writes nothing else. -/
def Obligations.PackPresentsThePackedFields : Prop :=
  ∀ (s : State) (k : RegimePort s.fmt) (e : ExponentPort s.fmt) (ff : FractionPort s.fmt), ∃ z : Pattern s.fmt,
    exec (.pack k.toInt e.toNat ff.toNat) s =
      .next ⟨s.fmt, s.inputs,
        { Response.start s.fmt with
          p := (packFields s.fmt.W s.fmt.ES k.toInt e.toNat ff.toNat).p, z := z,
          bnp1 := (packFields s.fmt.W s.fmt.ES k.toInt e.toNat ff.toNat).bnp1,
          more := (packFields s.fmt.W s.fmt.ES k.toInt e.toNat ff.toNat).more,
          sat := (packFields s.fmt.W s.fmt.ES k.toInt e.toNat ff.toNat).sat },
        s.idleCount⟩ ∧
    z.toNat = (packFields s.fmt.W s.fmt.ES k.toInt e.toNat ff.toNat).p.toNat ∧
    z.getLsbD (s.fmt.W - 1) = false

/-- The table of the borrowing rule in R83, row by row, with fracLength = W − 2 − ES − regA. -/
def Obligations.PackBorrowsAsTabulated : Prop :=
  ∀ (F : Format) (k : Int) (e ff : Nat), e < 2 ^ F.ES → ff < 2 ^ (2 * F.W) →
    let c := packFields F.W F.ES k e ff
    let regime := if 0 ≤ k then 2 ^ (regA k + 1) - 2 else 1
    (∀ fracLength : Nat, regA k + F.ES + fracLength = F.W - 2 →
      c.p.toNat = (regime * 2 ^ F.ES + e) * 2 ^ fracLength + ff / 2 ^ (2 * F.W - fracLength) ∧
      c.bnp1 = ff.testBit (2 * F.W - 1 - fracLength) ∧
      c.more = decide (ff % 2 ^ (2 * F.W - 1 - fracLength) ≠ 0) ∧ c.sat = false) ∧
    (∀ t : Nat, 1 ≤ t → t ≤ F.ES → regA k + F.ES = F.W - 2 + t →
      c.p.toNat = regime * 2 ^ (F.ES - t) + e / 2 ^ t ∧
      c.bnp1 = e.testBit (t - 1) ∧
      c.more = (decide (e % 2 ^ (t - 1) ≠ 0) || decide (ff ≠ 0)) ∧ c.sat = false) ∧
    (F.W - 2 < regA k →
      c.p.toNat = (if 0 ≤ k then 2 ^ (F.W - 1) - 1 else 1) ∧ c.bnp1 = false ∧ c.more = false ∧ c.sat = true)

/-- R84 item 2: the packed body is never 0; it is MAXPOS only by saturation, and a saturated body is MAXPOS or MINPOS. -/
def Obligations.PackedBodyIsNeverZero : Prop :=
  ∀ (F : Format) (k : Int) (e ff : Nat), e < 2 ^ F.ES → ff < 2 ^ (2 * F.W) →
    let c := packFields F.W F.ES k e ff
    (c.sat = false → 1 ≤ c.p.toNat ∧ c.p.toNat + 2 ≤ 2 ^ (F.W - 1)) ∧
    (c.sat = true → c.p.toNat = 1 ∨ c.p.toNat = 2 ^ (F.W - 1) - 1)

/-- R84 item 3: `pack_fields` is non-decreasing in the real number 2^(k·2^ES + e)·(1 + ff/2^(2W)). -/
def Obligations.PackIsMonotone : Prop :=
  ∀ (F : Format) (k k' : Int) (e e' ff ff' : Nat), e < 2 ^ F.ES → e' < 2 ^ F.ES → ff < 2 ^ (2 * F.W) →
    ff' < 2 ^ (2 * F.W) →
    fieldsValue F.W F.ES k e ff ≤ fieldsValue F.W F.ES k' e' ff' →
    (packFields F.W F.ES k e ff).p.toNat ≤ (packFields F.W F.ES k' e' ff').p.toNat

/-- R84 item 1: PACK inverts DEC on every positive pattern, exactly, with `sat` = 1 for MAXPOS only. -/
def Obligations.PackInvertsDecompose : Prop :=
  ∀ (F : Format) (x : Pattern F), 0 < x.toNat → x.toNat < 2 ^ (F.W - 1) →
    let d := decompose F.ES x
    packFields F.W F.ES d.k d.e (d.f * 2 ^ (F.FW - d.fl) * 2 ^ (F.W + 3)) =
      ⟨x.setWidth (F.W - 1), false, false, decide (x = maxpos F.W)⟩

/-! ## The rounding engine -/

/-- R105, with R100, R101 and R104: ROUND accumulates the sticky bit, adds the increment of the round-to-nearest-even rule
to the whole body, suppresses it at MAXPOS, reports a change of the regime value, and writes nothing else; `z` never has
its sign bit set. -/
def Obligations.RoundAddsTheIncrementToTheBody : Prop :=
  ∀ (s : State) (p : Body s.fmt) (bnp1 more sticky : Bool),
    let inc := bnp1 && (p.getLsbD 0 || (more || sticky))
    ∃ (z : Pattern s.fmt) (ovf : Bool),
      exec (.round p.toNat bnp1 more sticky) s =
        .next ⟨s.fmt, s.inputs,
          { Response.start s.fmt with z := z, inc := inc, ovf := ovf, more := more || sticky }, s.idleCount⟩ ∧
      z.toNat = min (p.toNat + inc.toNat) (2 ^ (s.fmt.W - 1) - 1) ∧
      (ovf = true ↔
        (inc = true ∧ p.toNat = 2 ^ (s.fmt.W - 1) - 1) ∨ (run z).k ≠ (run (p.setWidth s.fmt.W)).k)

/-- The bit test that R106 derives: `ovf` = 1 exactly when there is an increment and all bits below the regime and its
terminator are 1 (or the body is MAXPOS). -/
def Obligations.OverflowIsACarryIntoTheRegime : Prop :=
  ∀ (F : Format) (p : Body F) (bnp1 more sticky : Bool),
    let r : Rounded F.W := roundApply p bnp1 more sticky
    let g := run (p.setWidth F.W)
    let rem := F.W - 1 - g.m - g.term.toNat
    (r.ovf = true ↔ r.inc = true ∧ (p.toNat = 2 ^ (F.W - 1) - 1 ∨ p.toNat % 2 ^ rem = 2 ^ rem - 1))

/-- R108: ENC presents the intermediate bits of `encode_round` and the pattern with its sign restored, and writes nothing
else. -/
def Obligations.EncPresentsThePackedAndRoundedFields : Prop :=
  ∀ (s : State) (sign : Bool) (k : RegimePort s.fmt) (e : ExponentPort s.fmt) (ff : FractionPort s.fmt)
    (sticky : Bool),
    let c := packFields s.fmt.W s.fmt.ES k.toInt e.toNat ff.toNat
    let r : Rounded s.fmt.W := roundApply c.p c.bnp1 c.more sticky
    exec (.enc sign k.toInt e.toNat ff.toNat sticky) s =
      .next ⟨s.fmt, s.inputs,
        { Response.start s.fmt with
          z := if sign then -r.z else r.z, p := c.p, bnp1 := c.bnp1, more := c.more || sticky, sat := c.sat,
          inc := r.inc, ovf := r.ovf },
        s.idleCount⟩

/-- R109 item 1: the encoded pattern is never ZERO and never NAR, and its sign bit is the sign asked for. -/
def Obligations.EncodedPatternIsFiniteAndNonZero : Prop :=
  ∀ (F : Format) (sign : Bool) (k : Int) (e ff : Nat) (st : Bool), e < 2 ^ F.ES → ff < 2 ^ (2 * F.W) →
    let z := (encodeRound F.W F.ES sign k e ff st).z
    z ≠ zeroPat F.W ∧ z ≠ nar F.W ∧ z.getLsbD (F.W - 1) = sign

/-- R109 item 2: outside the range of the regime the result is ±MAXPOS or ±MINPOS, with `sat` = 1, `inc` = 0 and
`ovf` = 0, whatever the exponent, the fraction and the sticky bit are. -/
def Obligations.EncSaturatesAtBothEnds : Prop :=
  ∀ (F : Format) (sign : Bool) (k : Int) (e ff : Nat) (st : Bool),
    let r := encodeRound F.W F.ES sign k e ff st
    ((F.W : Int) - 2 ≤ k →
      r.z = (if sign then negW (maxpos F.W) else maxpos F.W) ∧ r.sat = true ∧ r.inc = false ∧ r.ovf = false) ∧
    (k ≤ -((F.W : Int) - 1) →
      r.z = (if sign then negW (minpos F.W) else minpos F.W) ∧ r.sat = true ∧ r.inc = false ∧ r.ovf = false)

/-- R109 item 3: rounding up into MAXPOS from the last regime that packs, and the tie below it. -/
def Obligations.EncRoundsUpIntoMaxpos : Prop :=
  ∀ (F : Format) (e ff : Nat) (st : Bool), e < 2 ^ F.ES → ff < 2 ^ (2 * F.W) →
    let r := encodeRound F.W F.ES false ((F.W : Int) - 3) e ff st
    let top := if F.ES = 0 then ff / 2 ^ (2 * F.W - 1) else e / 2 ^ (F.ES - 1)
    let lower := if F.ES = 0 then ff % 2 ^ (2 * F.W - 1) else e % 2 ^ (F.ES - 1) + ff
    (top = 1 → (lower ≠ 0 ∨ st = true) → r.z = maxpos F.W ∧ r.ovf = true) ∧
    (top = 1 → lower = 0 → st = false → r.z.toNat = 2 ^ (F.W - 1) - 2 ∧ r.inc = false) ∧
    (top = 0 → r.z.toNat = 2 ^ (F.W - 1) - 2 ∧ r.inc = false)

/-- R109 item 5 with R84 item 1: the fields of every pattern but ZERO and NAR, taken apart by DEC and given back to ENC,
encode to that pattern, exactly. -/
def Obligations.EncInvertsDecompose : Prop :=
  ∀ (F : Format) (x : Pattern F), x ≠ zeroPat F.W → x ≠ nar F.W →
    let d := decompose F.ES x
    let r := encodeRound F.W F.ES d.sign d.k d.e (d.f * 2 ^ (F.FW - d.fl) * 2 ^ (F.W + 3)) false
    r.z = x ∧ r.inc = false ∧ (r.sat = true ↔ x = maxpos F.W ∨ x = negW (maxpos F.W))

/-- R109 items 4 and 7: ENC is correctly rounded: its result is the pattern-nearest, ties-to-even rounding of the real
number encoded, where the sticky bit stands for a non-zero remainder below the last fraction bit. -/
def Obligations.EncIsCorrectlyRounded : Prop :=
  ∀ (F : Format) (sign : Bool) (k : Int) (e ff : Nat) (st : Bool) (v : ℚ), e < 2 ^ F.ES → ff < 2 ^ (2 * F.W) →
    (st = false → v = fieldsValue F.W F.ES k e ff) →
    (st = true → fieldsValue F.W F.ES k e ff < v ∧
      v < fieldsValue F.W F.ES k e ff + 2 ^ (k * 2 ^ F.ES + e : Int) / 2 ^ (2 * F.W)) →
    RoundsTo F.ES (if sign then -v else v) (encodeRound F.W F.ES sign k e ff st).z

/-! ## Multiply and divide -/

/-- R122 with R120: MUL presents `posit_mul` and writes nothing else; NaR absorbs, and otherwise Zero absorbs. -/
def Obligations.MulPresentsTheProduct : Prop :=
  ∀ (s : State) (a b : Pattern s.fmt), ∃ z : Pattern s.fmt,
    exec (.mul a.toNat b.toNat) s = .next ⟨s.fmt, s.inputs, { Response.start s.fmt with z := z }, s.idleCount⟩ ∧
    z = positMul s.fmt.ES a b ∧
    (a = nar s.fmt.W ∨ b = nar s.fmt.W → z = nar s.fmt.W) ∧
    (a ≠ nar s.fmt.W → b ≠ nar s.fmt.W → a = 0 ∨ b = 0 → z = 0)

/-- R124 item 6: multiplication is commutative. -/
def Obligations.MulIsCommutative : Prop :=
  ∀ (F : Format) (a b : Pattern F), positMul F.ES a b = positMul F.ES b a

/-- R124 item 5: multiplying by ONE gives the operand back and by −ONE its negation, NaR and Zero included. -/
def Obligations.MulByOneIsExact : Prop :=
  ∀ (F : Format) (a : Pattern F),
    positMul F.ES a (one F.W) = a ∧ positMul F.ES a (negW (one F.W)) = negW a

/-- R124 items 3 and 7: the sign law, and the symmetry under negation. -/
def Obligations.MulObeysTheSignLaws : Prop :=
  ∀ (F : Format) (a b : Pattern F),
    positMul F.ES (negW a) b = negW (positMul F.ES a b) ∧
    (a ≠ zeroPat F.W → a ≠ nar F.W → b ≠ zeroPat F.W → b ≠ nar F.W →
      (positMul F.ES a b).getLsbD (F.W - 1) = xor (a.getLsbD (F.W - 1)) (b.getLsbD (F.W - 1)))

/-- R124 items 4 and 9: the product of two finite non-zero patterns is the correctly rounded val(a)·val(b), saturated at
both ends. -/
def Obligations.MulIsCorrectlyRounded : Prop :=
  ∀ (F : Format) (a b : Pattern F) (u v : ℚ), val F.ES a = some u → val F.ES b = some v → u ≠ 0 → v ≠ 0 →
    RoundsTo F.ES (u * v) (positMul F.ES a b)

/-- R132 with R130: DIV presents `posit_div` and writes nothing else; NaR absorbs, then a zero divisor gives NaR, then a
zero dividend gives Zero. -/
def Obligations.DivPresentsTheQuotient : Prop :=
  ∀ (s : State) (a b : Pattern s.fmt), ∃ z : Pattern s.fmt,
    exec (.div a.toNat b.toNat) s = .next ⟨s.fmt, s.inputs, { Response.start s.fmt with z := z }, s.idleCount⟩ ∧
    z = positDiv s.fmt.ES a b ∧
    (a = nar s.fmt.W ∨ b = nar s.fmt.W ∨ b = 0 → z = nar s.fmt.W) ∧
    (a = 0 → b ≠ nar s.fmt.W → b ≠ 0 → z = 0)

/-- R134 item 3: a finite non-zero pattern divided by itself is ONE, and by its negation −ONE. -/
def Obligations.SelfDivisionIsOne : Prop :=
  ∀ (F : Format) (p : Pattern F), p ≠ zeroPat F.W → p ≠ nar F.W →
    positDiv F.ES p p = one F.W ∧ positDiv F.ES p (negW p) = negW (one F.W)

/-- R134 item 5: dividing by ONE gives the operand back and by −ONE its negation. -/
def Obligations.DivByOneIsExact : Prop :=
  ∀ (F : Format) (a : Pattern F),
    positDiv F.ES a (one F.W) = a ∧ positDiv F.ES a (negW (one F.W)) = negW a

/-- The bounds that R121 and R131 note: the exact product has its leading bit in one of two places, and so has the quotient,
whose place tells whether the first significand is at least the second. -/
def Obligations.ProductAndQuotientLeadingBit : Prop :=
  ∀ (F : Format) (a b : Pattern F),
    let sa := (decompose F.ES a).sig F.W
    let sb := (decompose F.ES b).sig F.W
    let q := (sa * 2 ^ F.W) / sb
    2 ^ F.FW ≤ sa ∧ sa < 2 ^ (F.FW + 1) ∧
    2 ^ (2 * F.FW) ≤ sa * sb ∧ sa * sb < 2 ^ (2 * F.FW + 2) ∧
    2 ^ (F.W - 1) < q ∧ q < 2 ^ (F.W + 1) ∧ (2 ^ F.W ≤ q ↔ sb ≤ sa)

/-- R134 items 4, 6 and 9: the quotient of two finite non-zero patterns is the correctly rounded val(a)/val(b), with the
remainder in the sticky bit, saturated at both ends. -/
def Obligations.DivIsCorrectlyRounded : Prop :=
  ∀ (F : Format) (a b : Pattern F) (u v : ℚ), val F.ES a = some u → val F.ES b = some v → u ≠ 0 → v ≠ 0 →
    RoundsTo F.ES (u / v) (positDiv F.ES a b) ∧
    (positDiv F.ES a b).getLsbD (F.W - 1) = xor (a.getLsbD (F.W - 1)) (b.getLsbD (F.W - 1))

/-! ## The comparator -/

/-- R151, R153, R155, R157: the four comparisons write the one port `flag`; EQ is bit identity with no NaR, LE and LT are
the two's-complement order and its strict part, GT is LT with the operands swapped. -/
def Obligations.ComparisonsWriteTheirFlag : Prop :=
  ∀ (s : State) (a b : Pattern s.fmt),
    exec (.eq a.toNat b.toNat) s =
      .next ⟨s.fmt, s.inputs, { Response.start s.fmt with
        flag := decide (a = b ∧ a ≠ BitVec.ofNat _ (2 ^ (s.fmt.W - 1))) }, s.idleCount⟩ ∧
    exec (.le a.toNat b.toNat) s =
      .next ⟨s.fmt, s.inputs, { Response.start s.fmt with flag := decide (a.toInt ≤ b.toInt) }, s.idleCount⟩ ∧
    exec (.lt a.toNat b.toNat) s =
      .next ⟨s.fmt, s.inputs, { Response.start s.fmt with flag := decide (a.toInt < b.toInt) }, s.idleCount⟩ ∧
    exec (.gt a.toNat b.toNat) s =
      .next ⟨s.fmt, s.inputs, { Response.start s.fmt with flag := decide (b.toInt < a.toInt) }, s.idleCount⟩

/-- R152: NaR equals nothing, itself included, and ZERO equals itself. R154: NaR is the least element of the order. -/
def Obligations.NarIsUnequalAndLeast : Prop :=
  ∀ (F : Format) (x : Pattern F),
    equalNotNar (nar F.W) x = false ∧ equalNotNar x (nar F.W) = false ∧
    orderLe (nar F.W) x = true ∧ (x ≠ nar F.W → orderLe x (nar F.W) = false) ∧
    equalNotNar (zeroPat F.W) (zeroPat F.W) = true

/-- R156: the relations between the four flags, NaR included. -/
def Obligations.FlagsFitTogether : Prop :=
  ∀ (F : Format) (a b c : Pattern F),
    (orderLt a b = !orderLe b a) ∧
    (orderLe a b = (orderLt a b || decide (a = b))) ∧
    (orderLe a b = true → orderLe b a = true → a = b) ∧
    (orderLe a b = true → orderLe b c = true → orderLe a c = true) ∧
    (orderLe a b = true ∨ orderLe b a = true) ∧
    (a ≠ nar F.W → b ≠ nar F.W → orderLe a b = (orderLt a b || equalNotNar a b)) ∧
    (a ≠ b → (orderLt a b = !orderLt b a))

/-- R158: the sign-magnitude comparator and the offset-binary one are the same relation as the signed order. -/
def Obligations.SignMagnitudeFormIsTheSameOrder : Prop :=
  ∀ (F : Format) (a b : Pattern F),
    let sign (x : Pattern F) : Bool := x.getLsbD (F.W - 1)
    let mag (x : Pattern F) : Nat := if sign x then (negW x).toNat else x.toNat
    (orderLe a b = true ↔
      (sign a = true ∧ sign b = false) ∨
      (sign a = false ∧ sign b = false ∧ mag a ≤ mag b) ∨
      (sign a = true ∧ sign b = true ∧ mag b ≤ mag a)) ∧
    (orderLe a b = true ↔ (a ^^^ nar F.W).toNat ≤ (b ^^^ nar F.W).toNat)

/-- For patterns other than NAR the order of the patterns is the order of their exact values (R159), and the equality is
equality of values (R152). -/
def Obligations.OrderIsTheOrderOfValues : Prop :=
  ∀ (F : Format) (a b : Pattern F) (u v : ℚ), val F.ES a = some u → val F.ES b = some v →
    (orderLe a b = true ↔ u ≤ v) ∧ (orderLt a b = true ↔ u < v) ∧ (equalNotNar a b = true ↔ u = v)

/-- R32: the values of the named patterns. -/
def Obligations.ValuesOfTheNamedPatterns : Prop :=
  ∀ F : Format,
    val F.ES (nar F.W) = none ∧ val F.ES (zeroPat F.W) = some 0 ∧
    val F.ES (one F.W) = some 1 ∧ val F.ES (negW (one F.W)) = some (-1) ∧
    val F.ES (maxpos F.W) = some (2 ^ maxScale F.W F.ES) ∧
    val F.ES (maxpos F.W) = some ((useed F.ES : ℚ) ^ (F.W - 2)) ∧
    val F.ES (minpos F.W) = some (1 / 2 ^ maxScale F.W F.ES)
end

