-- ==== Sys2Proof/Laws/Format.lean ====
section
/-! SUPPORT. The facts about W, ES, LW, KW and FW that the width formulas of 00_scope.md R8 rest on, and the named patterns
as numbers. -/

namespace Sys2Proof

theorem Format.es_add_three_le (F : Format) : F.ES + 3 ≤ F.W := F.es_le

/-- LW bits count up to W − 1. -/
theorem Format.two_pow_LW (F : Format) : 2 ^ F.LW = F.W := by
  rcases F with ⟨w, es, h⟩
  cases w <;> rfl

theorem Format.three_le_LW (F : Format) : 3 ≤ F.LW := by
  rcases F with ⟨w, es, h⟩
  cases w <;> simp [Format.LW, Width.log2]

/-- KW bits hold every regime value from −2W to 2W − 1 (10_state.md R26). -/
theorem Format.two_pow_KW_sub_one (F : Format) : 2 ^ (F.KW - 1) = 2 * F.W := by
  have h := F.two_pow_LW
  have : F.KW - 1 = F.LW + 1 := rfl
  rw [this, Nat.pow_succ, h, Nat.mul_comm]

/-- A length up to W − 1 is read back from its port unchanged. -/
theorem Format.lengthPort_toNat (F : Format) {n : Nat} (h : n < F.W) : (BitVec.ofNat F.LW n).toNat = n := by
  rw [BitVec.toNat_ofNat, F.two_pow_LW, Nat.mod_eq_of_lt h]

/-- A regime value from −2W to 2W − 1 is read back from its port unchanged (10_state.md R26). -/
theorem Format.regimePort_toInt (F : Format) {k : Int} (h₁ : -(2 * F.W : Int) ≤ k) (h₂ : k < 2 * F.W) :
    (BitVec.ofInt F.KW k).toInt = k := by
  have hp : (2 : Nat) ^ F.KW = 4 * F.W := by
    have := F.two_pow_KW_sub_one
    have e : F.KW = (F.KW - 1) + 1 := rfl
    rw [e, Nat.pow_succ, this]
    omega
  rw [BitVec.toInt_ofInt, hp]
  apply Int.bmod_eq_of_le <;> omega

/-- Powers of two below the word split as 2^(w−1) + 2^(w−1). -/
theorem two_pow_pred_double {w : Nat} (h : 1 ≤ w) : 2 ^ w = 2 * 2 ^ (w - 1) := by
  obtain ⟨v, rfl⟩ : ∃ v, w = v + 1 := ⟨w - 1, by omega⟩
  rw [Nat.add_sub_cancel, Nat.pow_succ, Nat.mul_comm]

@[simp] theorem zeroPat_toNat (w : Nat) : (zeroPat w).toNat = 0 := by
  simp [zeroPat]

theorem nar_toNat {w : Nat} (h : 1 ≤ w) : (nar w).toNat = 2 ^ (w - 1) := by
  have h2 := two_pow_pred_double h
  have := Nat.two_pow_pos (w - 1)
  rw [nar, BitVec.toNat_ofNat, Nat.mod_eq_of_lt (by omega)]

theorem one_toNat {w : Nat} (h : 2 ≤ w) : (one w).toNat = 2 ^ (w - 2) := by
  have : 2 ^ (w - 2) < 2 ^ w := Nat.pow_lt_pow_right (by omega) (by omega)
  rw [one, BitVec.toNat_ofNat, Nat.mod_eq_of_lt this]

theorem maxpos_toNat {w : Nat} (h : 1 ≤ w) : (maxpos w).toNat = 2 ^ (w - 1) - 1 := by
  have h2 := two_pow_pred_double h
  have := Nat.two_pow_pos (w - 1)
  rw [maxpos, BitVec.toNat_ofNat, Nat.mod_eq_of_lt (by omega)]

theorem minpos_toNat {w : Nat} (h : 1 ≤ w) : (minpos w).toNat = 1 := by
  have h2 := two_pow_pred_double h
  have := Nat.two_pow_pos (w - 1)
  rw [minpos, BitVec.toNat_ofNat, Nat.mod_eq_of_lt (by omega)]

end Sys2Proof
end

