-- ==== Sys2Proof/Laws/State.lean ====
section
/-! SUPPORT. One lemma per field per update of the state, and the operands of a decoded instruction read back as the port's
own value, so that no later proof unfolds a record update. -/

namespace Sys2Proof.Machine

@[simp] theorem State.present_fmt (s : State) (r : Response s.fmt) : (s.present r).fmt = s.fmt := rfl
@[simp] theorem State.present_inputs (s : State) (r : Response s.fmt) : (s.present r).inputs = s.inputs := rfl
@[simp] theorem State.present_rsp (s : State) (r : Response s.fmt) : (s.present r).rsp = r := rfl
@[simp] theorem State.present_idleCount (s : State) (r : Response s.fmt) :
    (s.present r).idleCount = s.idleCount := rfl
theorem State.present_eq_mk (s : State) (r : Response s.fmt) :
    s.present r = ⟨s.fmt, s.inputs, r, s.idleCount⟩ := rfl

@[simp] theorem State.consume_fmt (s : State) : s.consume.fmt = s.fmt := rfl
@[simp] theorem State.consume_inputs (s : State) : s.consume.inputs = s.inputs.tail := rfl
@[simp] theorem State.consume_rsp (s : State) : s.consume.rsp = s.rsp := rfl
@[simp] theorem State.consume_idleCount (s : State) : s.consume.idleCount = s.idleCount := rfl

@[simp] theorem State.underReset_fmt (s : State) : s.underReset.fmt = s.fmt := rfl
@[simp] theorem State.underReset_inputs (s : State) : s.underReset.inputs = s.inputs := rfl
@[simp] theorem State.underReset_rsp (s : State) : s.underReset.rsp = Response.zero s.fmt := rfl
@[simp] theorem State.underReset_idleCount (s : State) : s.underReset.idleCount = s.idleCount := rfl

@[simp] theorem State.idle_fmt (s : State) : s.idle.fmt = s.fmt := rfl
@[simp] theorem State.idle_inputs (s : State) : s.idle.inputs = s.inputs := rfl
@[simp] theorem State.idle_rsp (s : State) : s.idle.rsp = idleResponse s.fmt s.idleCount := rfl
@[simp] theorem State.idle_idleCount (s : State) : s.idle.idleCount = s.idleCount + 1 := rfl
@[simp] theorem idleResponse_rspValid (F : Format) (n : Nat) : (idleResponse F n).rspValid = false := rfl

@[simp] theorem State.withFetchWord_fmt (s : State) (nbits w : Nat) : (s.withFetchWord nbits w).fmt = s.fmt := rfl
@[simp] theorem State.withFetchWord_rsp (s : State) (nbits w : Nat) : (s.withFetchWord nbits w).rsp = s.rsp := rfl
@[simp] theorem State.withFetchWord_idleCount (s : State) (nbits w : Nat) :
    (s.withFetchWord nbits w).idleCount = s.idleCount := rfl
@[simp] theorem State.withFetchWord_inputs (s : State) (nbits w : Nat) :
    (s.withFetchWord nbits w).inputs = ⟨false, true, tableRequest s.fmt nbits w⟩ :: s.inputs.tail := rfl

@[simp] theorem patternOperand_toNat {F : Format} (a : Pattern F) : patternOperand F a.toNat = a := by
  simp [patternOperand]

@[simp] theorem regimeOperand_toInt {F : Format} (k : RegimePort F) : regimeOperand F k.toInt = k :=
  BitVec.ofInt_toInt

@[simp] theorem exponentOperand_toNat {F : Format} (e : ExponentPort F) : exponentOperand F e.toNat = e := by
  simp [exponentOperand]

@[simp] theorem fractionOperand_toNat {F : Format} (ff : FractionPort F) : fractionOperand F ff.toNat = ff := by
  simp [fractionOperand]

@[simp] theorem bodyOperand_toNat {F : Format} (p : Body F) : bodyOperand F p.toNat = p := by
  simp [bodyOperand]

end Sys2Proof.Machine
end

