-- ==== Sys2Proof/Laws/FieldCodec.lean ====
section
/-! SUPPORT. What each function of the field codec can do, said once: negation, the run count, the bounds on the decomposed
fields and on the packed body. -/

namespace Sys2Proof.Machine

/-- `neg_W` as a number. -/
theorem negW_toNat {w : Nat} (x : BitVec w) : (negW x).toNat = (2 ^ w - x.toNat) % 2 ^ w := by
  rw [negW, BitVec.toNat_ofNat]

/-- `neg_W` is the negation of the bit vector. -/
theorem negW_eq_neg {w : Nat} (x : BitVec w) : negW x = -x := by
  apply BitVec.eq_of_toNat_eq
  rw [negW_toNat, BitVec.toNat_neg]

/-- A count never exceeds the number of bits it may look at. -/
theorem countRun_le {w : Nat} (x : BitVec w) (rs : Bool) (i : Nat) : countRun x rs i ≤ i := by
  induction i with
  | zero => simp [countRun]
  | succ i ih =>
    simp only [countRun]
    split <;> omega

/-- Every counted bit equals `rs`. -/
theorem countRun_run {w : Nat} (x : BitVec w) (rs : Bool) (i : Nat) :
    ∀ j, j < countRun x rs i → x.getLsbD (i - 1 - j) = rs := by
  induction i with
  | zero => simp [countRun]
  | succ i ih =>
    intro j hj
    simp only [countRun] at hj
    split at hj
    case isTrue h =>
      cases j with
      | zero => simpa using h
      | succ j =>
        have := ih j (by omega)
        rwa [show i + 1 - 1 - (j + 1) = i - 1 - j by omega]
    case isFalse h => omega

/-- The bit below the counted ones, if there is one, differs from `rs`. -/
theorem countRun_stop {w : Nat} (x : BitVec w) (rs : Bool) (i : Nat) (h : countRun x rs i < i) :
    x.getLsbD (i - 1 - countRun x rs i) = !rs := by
  induction i with
  | zero => omega
  | succ i ih =>
    simp only [countRun] at h ⊢
    split at h
    case isTrue hb =>
      have := ih (by omega)
      rw [if_pos hb, show i + 1 - 1 - (countRun x rs i + 1) = i - 1 - countRun x rs i by omega]
      exact this
    case isFalse hb =>
      rw [if_neg hb]
      simpa [← Bool.not_eq] using hb

/-- The first bit looked at is always counted when it defines the run. -/
theorem countRun_pos {w : Nat} (x : BitVec w) (i : Nat) (h : 1 ≤ i) : 1 ≤ countRun x (x.getLsbD (i - 1)) i := by
  obtain ⟨j, rfl⟩ : ∃ j, i = j + 1 := ⟨i - 1, by omega⟩
  simp [countRun]

@[simp] theorem run_rs {w : Nat} (x : BitVec w) : (run x).rs = x.getLsbD (w - 2) := rfl
@[simp] theorem run_m {w : Nat} (x : BitVec w) : (run x).m = countRun x (x.getLsbD (w - 2)) (w - 1) := rfl
@[simp] theorem run_term {w : Nat} (x : BitVec w) : (run x).term = decide ((run x).m < w - 1) := rfl
@[simp] theorem run_k {w : Nat} (x : BitVec w) :
    (run x).k = if (run x).rs then ((run x).m : Int) - 1 else -((run x).m : Int) := rfl

/-- The run has at least one bit and at most the whole body (10_state.md R26). -/
theorem run_m_bounds {w : Nat} (x : BitVec w) (h : 2 ≤ w) : 1 ≤ (run x).m ∧ (run x).m ≤ w - 1 :=
  ⟨countRun_pos x (w - 1) (by omega), countRun_le x _ (w - 1)⟩

/-- The regime value lies in [−(W−1), W−2] (10_state.md R26). -/
theorem run_k_bounds {w : Nat} (x : BitVec w) (h : 2 ≤ w) :
    -((w : Int) - 1) ≤ (run x).k ∧ (run x).k ≤ (w : Int) - 2 := by
  have := run_m_bounds x h
  rw [run_k]
  split <;> omega

/-- The run with its terminator fits the body. -/
theorem run_m_add_term_le {w : Nat} (x : BitVec w) (h : 2 ≤ w) : (run x).m + (run x).term.toNat ≤ w - 1 := by
  have := run_m_bounds x h
  rw [run_term]
  by_cases hm : (run x).m < w - 1
  · rw [decide_eq_true hm]; simpa using hm
  · rw [decide_eq_false hm]; simpa using this.2

/-- The exponent and fraction bits present share what the regime leaves (10_state.md R29). -/
theorem decompose_lengths {w : Nat} (es : Nat) (x : BitVec w) :
    (decompose es x).el = min es (w - 1 - (decompose es x).m - (decompose es x).term.toNat) ∧
    (decompose es x).el + (decompose es x).fl = w - 1 - (decompose es x).m - (decompose es x).term.toNat := by
  have h (es rem : Nat) : min es rem + (rem - min es rem) = rem := by omega
  exact ⟨rfl, h es _⟩

/-- The regime of a decomposed pattern is the run of its magnitude. -/
theorem decompose_run {w : Nat} (es : Nat) (x : BitVec w) :
    (decompose es x).m = (run (if x.getLsbD (w - 1) then negW x else x)).m ∧
    (decompose es x).rs = (run (if x.getLsbD (w - 1) then negW x else x)).rs ∧
    (decompose es x).term = (run (if x.getLsbD (w - 1) then negW x else x)).term ∧
    (decompose es x).k = (run (if x.getLsbD (w - 1) then negW x else x)).k := by
  simp [decompose]

/-- The fraction fits its bits. -/
theorem decompose_f_lt {w : Nat} (es : Nat) (x : BitVec w) :
    (decompose es x).f < 2 ^ (decompose es x).fl := by
  simp only [decompose]
  exact Nat.mod_lt _ (Nat.two_pow_pos _)

/-- The exponent fits ES bits. -/
theorem decompose_e_lt {w : Nat} (es : Nat) (x : BitVec w) : (decompose es x).e < 2 ^ es := by
  simp only [decompose]
  generalize hmag : (if x.getLsbD (w - 1) = true then negW x else x) = mag
  generalize hrem : w - 1 - (run mag).m - (run mag).term.toNat = rem
  have hlt : mag.toNat % 2 ^ rem < 2 ^ rem := Nat.mod_lt _ (Nat.two_pow_pos _)
  have hel : min es rem + (rem - min es rem) = rem := by omega
  rw [Nat.shiftRight_eq_div_pow, Nat.shiftLeft_eq]
  have hdiv : mag.toNat % 2 ^ rem / 2 ^ (rem - min es rem) < 2 ^ min es rem := by
    rw [Nat.div_lt_iff_lt_mul (Nat.two_pow_pos _), ← Nat.pow_add, hel]
    exact hlt
  calc mag.toNat % 2 ^ rem / 2 ^ (rem - min es rem) * 2 ^ (es - min es rem)
      < 2 ^ min es rem * 2 ^ (es - min es rem) := Nat.mul_lt_mul_of_pos_right hdiv (Nat.two_pow_pos _)
    _ = 2 ^ es := by rw [← Nat.pow_add]; congr 1; omega

/-- The fraction has at most W − 3 bits, so its port holds it left-aligned. -/
theorem decompose_fl_le {w : Nat} (es : Nat) (x : BitVec w) (h : 3 ≤ w) : (decompose es x).fl ≤ w - 3 := by
  have hl := decompose_lengths es x
  obtain ⟨hm, -, ht, -⟩ := decompose_run es x
  generalize (if x.getLsbD (w - 1) then negW x else x) = mag at hm ht
  have hb := run_m_bounds mag (by omega)
  rw [hm, ht, run_term] at hl
  by_cases hlt : (run mag).m < w - 1
  · simp only [decide_eq_true hlt, Bool.toNat_true] at hl
    omega
  · simp only [decide_eq_false hlt, Bool.toNat_false] at hl
    omega

/-- The significand lies in [2^FW, 2^(FW+1)) (40_field_codec.md R79). -/
theorem sig_decompose_bounds {w : Nat} (es : Nat) (x : BitVec w) (h : 3 ≤ w) :
    2 ^ (w - 3) ≤ (decompose es x).sig w ∧ (decompose es x).sig w < 2 ^ (w - 3 + 1) := by
  have hf := decompose_f_lt es x
  have hfl := decompose_fl_le es x h
  simp only [Dec.sig, Nat.shiftLeft_eq]
  have : (decompose es x).f * 2 ^ (w - 3 - (decompose es x).fl) < 2 ^ (w - 3) := by
    calc (decompose es x).f * 2 ^ (w - 3 - (decompose es x).fl)
        < 2 ^ (decompose es x).fl * 2 ^ (w - 3 - (decompose es x).fl) :=
          Nat.mul_lt_mul_of_pos_right hf (Nat.two_pow_pos _)
      _ = 2 ^ (w - 3) := by rw [← Nat.pow_add]; congr 1; omega
  rw [Nat.pow_succ]
  omega

/-- A regime run has at least one bit. -/
theorem regA_pos (k : Int) : 1 ≤ regA k := by
  unfold regA
  split <;> omega

/-- Saturation: what `pack_fields` returns when the run is longer than MAXREG. -/
theorem packFields_of_saturated {w es : Nat} {k : Int} {e ff : Nat} (h : maxReg w < regA k) :
    packFields w es k e ff =
      { p := (if 0 ≤ k then maxpos w else minpos w).setWidth (w - 1), bnp1 := false, more := false,
        sat := true } := by
  rw [packFields, if_pos h]

/-- No saturation: the body is the top of the unrounded string and the pair is what follows it. -/
theorem packFields_of_fits {w es : Nat} {k : Int} {e ff : Nat} (h : regA k ≤ maxReg w) :
    packFields w es k e ff =
      { p := BitVec.ofNat (w - 1) (unrounded w es k e ff >>> discarded w es k),
        bnp1 := (unrounded w es k e ff).testBit (discarded w es k - 1),
        more := decide (unrounded w es k e ff % 2 ^ (discarded w es k - 1) ≠ 0), sat := false } := by
  rw [packFields, if_neg (by omega)]

@[simp] theorem packFields_sat {w es : Nat} (k : Int) (e ff : Nat) :
    (packFields w es k e ff).sat = decide (maxReg w < regA k) := by
  by_cases h : maxReg w < regA k
  · rw [packFields_of_saturated h, decide_eq_true h]
  · rw [packFields_of_fits (by omega), decide_eq_false h]

/-- The unrounded string has regA + 1 + ES + 2W bits (40_field_codec.md R80). -/
theorem unrounded_lt {w es : Nat} (k : Int) {e ff : Nat} (he : e < 2 ^ es) (hff : ff < 2 ^ (2 * w)) :
    unrounded w es k e ff < 2 ^ (regA k + 1 + es + 2 * w) := by
  have hr : (if 0 ≤ k then 2 ^ (regA k + 1) - 2 else 1) + 1 ≤ 2 ^ (regA k + 1) := by
    have h4 : 2 ^ 2 ≤ 2 ^ (regA k + 1) := Nat.pow_le_pow_right (by omega) (by have := regA_pos k; omega)
    split <;> omega
  simp only [unrounded, Nat.shiftLeft_eq]
  generalize (if 0 ≤ k then 2 ^ (regA k + 1) - 2 else 1) = rt at hr
  have h1 : rt * 2 ^ es + e < 2 ^ (regA k + 1 + es) := by
    calc rt * 2 ^ es + e < rt * 2 ^ es + 2 ^ es := by omega
      _ = (rt + 1) * 2 ^ es := by ring
      _ ≤ 2 ^ (regA k + 1) * 2 ^ es := Nat.mul_le_mul_right _ hr
      _ = 2 ^ (regA k + 1 + es) := by rw [← Nat.pow_add]
  calc (rt * 2 ^ es + e) * 2 ^ (2 * w) + ff < (rt * 2 ^ es + e) * 2 ^ (2 * w) + 2 ^ (2 * w) := by omega
    _ = (rt * 2 ^ es + e + 1) * 2 ^ (2 * w) := by ring
    _ ≤ 2 ^ (regA k + 1 + es) * 2 ^ (2 * w) := Nat.mul_le_mul_right _ (by omega)
    _ = 2 ^ (regA k + 1 + es + 2 * w) := by rw [← Nat.pow_add]

/-- The body fits its W − 1 bits, so nothing is cut when it is put on the port. -/
theorem packFields_p_toNat {w es : Nat} (hw : 3 ≤ w) {k : Int} {e ff : Nat} (h : regA k ≤ maxReg w)
    (he : e < 2 ^ es) (hff : ff < 2 ^ (2 * w)) :
    (packFields w es k e ff).p.toNat = unrounded w es k e ff / 2 ^ discarded w es k := by
  rw [packFields_of_fits h, BitVec.toNat_ofNat, Nat.shiftRight_eq_div_pow, Nat.mod_eq_of_lt]
  rw [Nat.div_lt_iff_lt_mul (Nat.two_pow_pos _), ← Nat.pow_add]
  have hlen : w - 1 + discarded w es k = regA k + 1 + es + 2 * w := by
    simp only [discarded]
    omega
  rw [hlen]
  exact unrounded_lt k he hff

end Sys2Proof.Machine
end

