-- ==== Sys2Proof/Laws/PerInstr.lean ====
section
/-! SUPPORT. The family `RequestRoundTrip`: for every instruction, the canonical request of a well-formed instruction decodes
to that instruction, and carries its operation code. -/

namespace Sys2Proof.Laws.RequestRoundTrip

/-- The decoder reads every operand of a well-formed instruction back from its canonical request. -/
def Statement (i : Instr) : Prop :=
  ∀ F : Format, i.wellFormed F = true → decode (i.request F) = i ∧ (i.request F).op = i.opcode

/-- A number that fits a port is read back from it. -/
theorem ofNat_toNat_of_lt {w a : Nat} (h : a < 2 ^ w) : (BitVec.ofNat w a).toNat = a := by
  rw [BitVec.toNat_ofNat, Nat.mod_eq_of_lt h]

/-- A regime value that fits the port `fk` is read back from it. -/
theorem regime_toInt {F : Format} {k : Int} (h : fitsRegime F k) : (BitVec.ofInt F.KW k).toInt = k := by
  have hp := F.two_pow_KW_sub_one
  have hp' : (2 : Int) ^ (F.KW - 1) = 2 * F.W := by exact_mod_cast hp
  apply F.regimePort_toInt
  · rw [← hp']; exact h.1
  · rw [← hp']; exact h.2

theorem pass (a : Nat) : Statement (.pass a) := by
  intro F h
  have h : a < 2 ^ F.W := by simpa [Instr.wellFormed] using h
  simp [decode, Instr.request, Instr.opcode, Request.zero, ofNat_toNat_of_lt h]

theorem neg (a : Nat) : Statement (.neg a) := by
  intro F h
  have h : a < 2 ^ F.W := by simpa [Instr.wellFormed] using h
  simp [decode, Instr.request, Instr.opcode, Request.zero, ofNat_toNat_of_lt h]

theorem rlen (a : Nat) : Statement (.rlen a) := by
  intro F h
  have h : a < 2 ^ F.W := by simpa [Instr.wellFormed] using h
  simp [decode, Instr.request, Instr.opcode, Request.zero, ofNat_toNat_of_lt h]

theorem dec (a : Nat) : Statement (.dec a) := by
  intro F h
  have h : a < 2 ^ F.W := by simpa [Instr.wellFormed] using h
  simp [decode, Instr.request, Instr.opcode, Request.zero, ofNat_toNat_of_lt h]

theorem pack (k : Int) (e ff : Nat) : Statement (.pack k e ff) := by
  intro F h
  have h : (fitsRegime F k ∧ fitsExponent F e) ∧ fitsFraction F ff := by
    simpa only [Instr.wellFormed, Bool.and_eq_true, decide_eq_true_eq] using h
  simp [decode, Instr.request, Instr.opcode, Request.zero, regime_toInt h.1.1, ofNat_toNat_of_lt h.1.2,
    ofNat_toNat_of_lt h.2]

theorem round (p : Nat) (bnp1 more sticky : Bool) : Statement (.round p bnp1 more sticky) := by
  intro F h
  have h : p < 2 ^ (F.W - 1) := by simpa [Instr.wellFormed] using h
  simp [decode, Instr.request, Instr.opcode, Request.zero, ofNat_toNat_of_lt h]

theorem enc (sign : Bool) (k : Int) (e ff : Nat) (sticky : Bool) : Statement (.enc sign k e ff sticky) := by
  intro F h
  have h : (fitsRegime F k ∧ fitsExponent F e) ∧ fitsFraction F ff := by
    simpa only [Instr.wellFormed, Bool.and_eq_true, decide_eq_true_eq] using h
  simp [decode, Instr.request, Instr.opcode, Request.zero, regime_toInt h.1.1, ofNat_toNat_of_lt h.1.2,
    ofNat_toNat_of_lt h.2]

theorem reserved7 : Statement .reserved7 := by
  intro F _
  simp [decode, Instr.request, Instr.opcode, Request.zero]

theorem mul (a b : Nat) : Statement (.mul a b) := by
  intro F h
  have h : a < 2 ^ F.W ∧ b < 2 ^ F.W := by simpa [Instr.wellFormed] using h
  simp [decode, Instr.request, Instr.opcode, Request.zero, ofNat_toNat_of_lt h.1, ofNat_toNat_of_lt h.2]

theorem div (a b : Nat) : Statement (.div a b) := by
  intro F h
  have h : a < 2 ^ F.W ∧ b < 2 ^ F.W := by simpa [Instr.wellFormed] using h
  simp [decode, Instr.request, Instr.opcode, Request.zero, ofNat_toNat_of_lt h.1, ofNat_toNat_of_lt h.2]

theorem eq (a b : Nat) : Statement (.eq a b) := by
  intro F h
  have h : a < 2 ^ F.W ∧ b < 2 ^ F.W := by simpa [Instr.wellFormed] using h
  simp [decode, Instr.request, Instr.opcode, Request.zero, ofNat_toNat_of_lt h.1, ofNat_toNat_of_lt h.2]

theorem le (a b : Nat) : Statement (.le a b) := by
  intro F h
  have h : a < 2 ^ F.W ∧ b < 2 ^ F.W := by simpa [Instr.wellFormed] using h
  simp [decode, Instr.request, Instr.opcode, Request.zero, ofNat_toNat_of_lt h.1, ofNat_toNat_of_lt h.2]

theorem lt (a b : Nat) : Statement (.lt a b) := by
  intro F h
  have h : a < 2 ^ F.W ∧ b < 2 ^ F.W := by simpa [Instr.wellFormed] using h
  simp [decode, Instr.request, Instr.opcode, Request.zero, ofNat_toNat_of_lt h.1, ofNat_toNat_of_lt h.2]

theorem gt (a b : Nat) : Statement (.gt a b) := by
  intro F h
  have h : a < 2 ^ F.W ∧ b < 2 ^ F.W := by simpa [Instr.wellFormed] using h
  simp [decode, Instr.request, Instr.opcode, Request.zero, ofNat_toNat_of_lt h.1, ofNat_toNat_of_lt h.2]

theorem reservedE : Statement .reservedE := by
  intro F _
  simp [decode, Instr.request, Instr.opcode, Request.zero]

theorem reservedF : Statement .reservedF := by
  intro F _
  simp [decode, Instr.request, Instr.opcode, Request.zero]

end Sys2Proof.Laws.RequestRoundTrip
end

