-- ==== Sys2Proof/Laws/Step.lean ====
section
/-! SUPPORT. What a step can do, said once: every meaning answers by presenting a response, and a step is one of four
cycles. -/

namespace Sys2Proof.Machine

/-- Every meaning answers: it presents one response with `rsp_valid` = 1, a function of the format and the instruction,
and changes nothing else. -/
theorem exec_presents (i : Instr) (F : Format) :
    ∃ r : Response F, r.rspValid = true ∧
      ∀ (xs : List (Sample F)) (u : Response F) (n : Nat), exec i ⟨F, xs, u, n⟩ = .next ⟨F, xs, r, n⟩ := by
  cases i <;>
    (refine ⟨?_, ?_, fun xs u n => ?_⟩
     case refine_3 =>
       simp only [exec, execPass, execNeg, execRlen, execDec, execPack, execRound, execEnc, execMul, execDiv, execEq,
         execLe, execLt, execGt, execReserved7, execReservedE, execReservedF, State.raiseReservedOp, State.answer,
         State.present]
       rfl
     case refine_2 => rfl)

theorem step_of_no_input {s : State} (h : s.inputs = []) : step s = .next s.idle := by
  simp only [step, h]

theorem step_of_reset {F : Format} {x : Sample F} {xs : List (Sample F)} {u : Response F} {n : Nat}
    (h : x.rst = true) : step ⟨F, x :: xs, u, n⟩ = .next ⟨F, xs, Response.zero F, n⟩ := by
  simp only [step, h, if_true]
  rfl

theorem step_of_request {F : Format} {x : Sample F} {xs : List (Sample F)} {u : Response F} {n : Nat}
    (h : x.IsRequest) : step ⟨F, x :: xs, u, n⟩ = exec (decode x.req) ⟨F, xs, u, n⟩ := by
  simp only [step, h.1, h.2, Bool.false_eq_true, if_true, if_false]
  rfl

theorem step_of_idle {F : Format} {x : Sample F} {xs : List (Sample F)} {u : Response F} {n : Nat}
    (h₁ : x.rst = false) (h₂ : x.reqValid = false) :
    step ⟨F, x :: xs, u, n⟩ = .next ⟨F, xs, idleResponse F n, n + 1⟩ := by
  simp only [step, h₁, h₂, Bool.false_eq_true, if_false]
  rfl

end Sys2Proof.Machine
end

