-- ==== Sys2Proof/Laws/Value.lean ====
section
/-! SUPPORT. The three cases of the reference function `val`. -/

namespace Sys2Proof.Machine

@[simp] theorem val_nar {w : Nat} (es : Nat) : val es (nar w) = none := by
  simp [val]

theorem val_zero {w : Nat} (es : Nat) (h : zeroPat w ≠ nar w) : val es (zeroPat w) = some 0 := by
  simp [val, h]

/-- The value of a finite non-zero pattern, from its decomposition (10_state.md R31). -/
theorem val_finite {w : Nat} {es : Nat} {x : BitVec w} {d : Dec} (hn : x ≠ nar w) (hz : x ≠ zeroPat w)
    (hd : decompose es x = d) :
    val es x = some ((if d.sign then -1 else 1) * 2 ^ d.scale es * (1 + (d.f : ℚ) / 2 ^ d.fl)) := by
  simp only [val, if_neg hn, if_neg hz, hd]

end Sys2Proof.Machine
end

