-- ==== Sys2Proof/Tests/Slice0.lean ====
section
/-! SUPPORT. The model's own tests: the well-formedness check refuses ill-formed terms; words written out from the spec's
encoding decode to the instruction they stand for; one step of each operation gives the response of the spec's tables
(95_test_vectors.md, 96_test_vectors_wide.md); and every obligation with hypotheses has a witness that meets them. -/

namespace Sys2Proof.Tests

open Sys2Proof.Machine

/-- The format (8, 2) of the spec's worked examples. -/
def f82 : Format := ⟨.w8, 2, by decide⟩

/-- The format (8, 0). -/
def f80 : Format := ⟨.w8, 0, by decide⟩

/-- A state with one request on its ports and nothing after it. -/
def ask (F : Format) (i : Instr) : State :=
  ⟨F, [⟨false, true, i.request F⟩], Response.zero F, 0⟩

/-- One port of the response that a step presents, as a number; `none` if it stops or presents no response. -/
def port (f : (F : Format) → Response F → Nat) : Host.Outcome State Fault Refusal → Option Nat
  | .next t => if t.rsp.rspValid then some (f t.fmt t.rsp) else none
  | .fault _ => none
  | .refused _ => none

/-- The ports of PACK, ROUND and ENC side by side, as the spec's tables print them: p, bnp1, more, sat, inc, ovf, z. -/
def ports : Host.Outcome State Fault Refusal → Option (List Nat)
  | .next t => some [t.rsp.p.toNat, t.rsp.bnp1.toNat, t.rsp.more.toNat, t.rsp.sat.toNat, t.rsp.inc.toNat,
      t.rsp.ovf.toNat, t.rsp.z.toNat]
  | .fault _ => none
  | .refused _ => none

/-- The ports of RLEN and DEC side by side: sign, rs, m, term, e, el, d_f, fl, zero, nar, and k. -/
def fields : Host.Outcome State Fault Refusal → Option (List Nat × Int)
  | .next t => some ([t.rsp.dSign.toNat, t.rsp.dRs.toNat, t.rsp.dM.toNat, t.rsp.dTerm.toNat, t.rsp.dE.toNat,
      t.rsp.dEl.toNat, t.rsp.dF.toNat, t.rsp.dFl.toNat, t.rsp.dZero.toNat, t.rsp.dNar.toNat], t.rsp.dK.toInt)
  | .fault _ => none
  | .refused _ => none

def zOf (o : Host.Outcome State Fault Refusal) : Option Nat := port (fun _ r => r.z.toNat) o
def flagOf (o : Host.Outcome State Fault Refusal) : Option Nat := port (fun _ r => r.flag.toNat) o
def errOf (o : Host.Outcome State Fault Refusal) : Option Nat := port (fun _ r => r.err.toNat * 16 + r.ecode.toNat) o

/-! ## Ill-formed terms are refused (10_state.md R24) -/

theorem test_wf_pattern_too_wide : (Instr.pass 0x100).wellFormed f82 = false := by decide
theorem test_wf_second_pattern_too_wide : (Instr.mul 0x01 0x100).wellFormed f82 = false := by decide
theorem test_wf_regime_too_large : (Instr.pack 16 0 0).wellFormed f82 = false := by decide
theorem test_wf_regime_too_small : (Instr.enc false (-17) 0 0 false).wellFormed f82 = false := by decide
theorem test_wf_exponent_too_wide : (Instr.pack 0 4 0).wellFormed f82 = false := by decide
theorem test_wf_exponent_of_width_zero : (Instr.pack 0 1 0).wellFormed f80 = false := by decide
theorem test_wf_fraction_too_wide : (Instr.enc false 0 0 0x10000 false).wellFormed f82 = false := by decide
theorem test_wf_body_too_wide : (Instr.round 0x80 true true true).wellFormed f82 = false := by decide
theorem test_wf_extremes_fit :
    (Instr.enc true (-16) 3 0xFFFF true).wellFormed f82 = true ∧ (Instr.pack 15 3 0xFFFF).wellFormed f82 = true := by
  decide

/-! ## Construction (70_reset_and_hazards.md R193) -/

theorem test_make_refuses_width_12 : Format.make? 12 2 = none := by decide
theorem test_make_refuses_es_6 : Format.make? 8 6 = none ∧ Format.make? 8 5 ≠ none := by decide

/-! ## Words written out from the table of bit positions (30_encoding.md R53; 95_test_vectors.md section 2.10) -/

theorem test_decode_pass : decodeBits f82 54 0x01740000000000 = .ok (.pass 0x5D) := by decide
theorem test_decode_neg : decodeBits f82 54 0x05740000000000 = .ok (.neg 0x5D) := by decide
theorem test_decode_rlen : decodeBits f82 54 0x09D80000000000 = .ok (.rlen 0x76) := by decide
theorem test_decode_dec : decodeBits f82 54 0x0E8C0000000000 = .ok (.dec 0xA3) := by decide
theorem test_decode_pack : decodeBits f82 54 0x1000000EC00000 = .ok (.pack 0 3 0xB000) := by decide
theorem test_decode_pack_negative : decodeBits f82 54 0x100001B8000000 = .ok (.pack (-5) 2 0) := by decide
theorem test_decode_round : decodeBits f82 54 0x140000000002EC = .ok (.round 0x5D true false false) := by decide
theorem test_decode_enc : decodeBits f82 54 0x1800020EC00000 = .ok (.enc true 0 3 0xB000 false) := by decide
theorem test_decode_reserved7 : decodeBits f82 54 0x1D740000000000 = .ok .reserved7 := by decide
theorem test_decode_mul : decodeBits f82 54 0x2174D400000000 = .ok (.mul 0x5D 0x35) := by decide
theorem test_decode_mul_ignores_other_ports : decodeBits f82 54 0x2174D7FFFFFFFF = .ok (.mul 0x5D 0x35) := by decide
theorem test_decode_div : decodeBits f82 54 0x25013000000000 = .ok (.div 0x40 0x4C) := by decide
theorem test_decode_eq : decodeBits f82 54 0x29757400000000 = .ok (.eq 0x5D 0x5D) := by decide
theorem test_decode_le : decodeBits f82 54 0x2E8CD400000000 = .ok (.le 0xA3 0x35) := by decide
theorem test_decode_lt : decodeBits f82 54 0x30D4D400000000 = .ok (.lt 0x35 0x35) := by decide
theorem test_decode_gt : decodeBits f82 54 0x34D68C00000000 = .ok (.gt 0x35 0xA3) := by decide
theorem test_decode_reservedE : decodeBits f82 54 0x38000000000000 = .ok .reservedE := by decide
theorem test_decode_reservedF : decodeBits f82 54 0x3E020000000000 = .ok .reservedF := by decide
theorem test_decode_refuses_wrong_length :
    decodeBits f82 53 0x01740000000000 = .error .wrongLength ∧
    decodeBits f82 54 0x40000000000000 = .error .wrongLength := by decide
theorem test_decode_wide_enc :
    decodeBits Format.reference 337
      0x0C000000000000000000000000000000003E0000000000000000000000000000000000000000000000000 =
      .ok (.enc false 62 0 0 false) := by decide
theorem test_encode_wide_mul :
    (encode Format.reference (.mul 0x4000000000000000 0xC000000000000000)).toNat =
      0x1080000000000000018000000000000000000000000000000000000000000000000000000000000000000 := by decide

/-- Row by row, a table word is its operation with operand ports of 0, and runs as the first request after reset. -/
theorem test_table_words :
    decodeTableWord 8 0x6 = some (.enc false 0 0 0 false) ∧ decodeTableWord 8 0xE = some .reservedE ∧
    decodeTableWord 8 0xA = some (.eq 0 0) := by decide
theorem test_first_request_after_reset :
    flagOf (step (State.reset.withFetchWord 8 0xA)) = some 1 ∧ errOf (step (State.reset.withFetchWord 8 0x7)) = some 17 := by
  decide

/-! ## One step of each operation -/

theorem test_pass_nar : zOf (step (ask f82 (.pass 0x80))) = some 0x80 := by decide
theorem test_neg_maxpos : zOf (step (ask f82 (.neg 0x7F))) = some 0x81 := by decide
theorem test_neg_nar : zOf (step (ask f82 (.neg 0x80))) = some 0x80 := by decide
theorem test_rlen : fields (step (ask f82 (.rlen 0x76))) = some ([0, 1, 3, 1, 0, 0, 0, 0, 0, 0], 2) := by decide
theorem test_rlen_ignores_sign :
    fields (step (ask f82 (.rlen 0x80))) = some ([0, 0, 7, 0, 0, 0, 0, 0, 0, 0], -7) := by decide
theorem test_dec_negative :
    fields (step (ask f82 (.dec 0xA3))) = some ([1, 1, 1, 1, 3, 2, 0x14, 3, 0, 0], 0) := by decide
theorem test_dec_truncated_exponent :
    fields (step (ask f82 (.dec 0x03))) = some ([0, 0, 5, 1, 2, 1, 0, 0, 0, 0], -5) := by decide
theorem test_pack_truncated_exponent :
    ports (step (ask f82 (.pack 4 3 0x0001))) = some [0x7D, 1, 1, 0, 0, 0, 0x7D] := by decide
theorem test_pack_saturates :
    ports (step (ask f82 (.pack (-7) 3 0xFFFF))) = some [0x01, 0, 0, 1, 0, 0, 0x01] := by decide
theorem test_round_carries_into_the_regime :
    ports (step (ask f82 (.round 0x5F true false false))) = some [0, 0, 0, 0, 1, 1, 0x60] := by decide
theorem test_round_suppressed_at_maxpos :
    ports (step (ask f82 (.round 0x7F true false false))) = some [0, 0, 0, 0, 1, 1, 0x7F] := by decide
theorem test_enc_negative_tie :
    ports (step (ask f82 (.enc true 0 3 0xB000 false))) = some [0x5D, 1, 0, 0, 1, 0, 0xA2] := by decide
theorem test_enc_sticky_breaks_exponent_tie :
    ports (step (ask f82 (.enc false 5 2 0 true))) = some [0x7E, 1, 1, 0, 1, 1, 0x7F] := by decide
theorem test_mul_traced : zOf (step (ask f82 (.mul 0x5D 0x35))) = some 0x53 := by decide
theorem test_mul_wide_tie :
    zOf (step (ask Format.reference (.mul 0xBC00000000000000 0x4000000000000001))) = some 0xBBFFFFFFFFFFFFFE := by
  decide
theorem test_div_traced : zOf (step (ask f82 (.div 0x40 0x4C))) = some 0x33 := by decide
theorem test_div_wide_sticky :
    zOf (step (ask Format.reference (.div 0x5A00000000000000 0x4C00000000000000))) = some 0x4D55555555555555 := by
  decide
theorem test_eq_nar : flagOf (step (ask f82 (.eq 0x80 0x80))) = some 0 := by decide
theorem test_le_nar : flagOf (step (ask f82 (.le 0x80 0x80))) = some 1 := by decide
theorem test_le_negative : flagOf (step (ask f82 (.le 0xA3 0x35))) = some 1 := by decide
theorem test_lt_nar : flagOf (step (ask f82 (.lt 0x80 0x81))) = some 1 := by decide
theorem test_gt : flagOf (step (ask f82 (.gt 0x35 0xA3))) = some 1 := by decide
theorem test_ge_expands_to_le : flagOf (step (ask f82 (.ge 0x5E 0x5D))) = some 1 := by decide
theorem test_mov_expands_to_pass : zOf (step (ask f82 (.mov 0x5D))) = some 0x5D := by decide
theorem test_reservedE : errOf (step (ask f82 .reservedE)) = some 17 ∧ zOf (step (ask f82 .reservedE)) = some 0 := by
  decide
theorem test_frac : frac f82 0b1011 4 = 0xB000 := by decide

/-! ## Witnesses: for each obligation with hypotheses, a state and operands that meet them, clause by clause -/

/-- A request for MUL 0x5D, 0x35 in (8, 2), and the same with every port outside its format changed. -/
def mulRequest : Request f82 := (Instr.mul 0x5D 0x35).request f82
def mulRequestNoisy : Request f82 :=
  { mulRequest with fs := true, fk := -1, fe := 3, ff := 0xFFFF, fp := 0x7F, rBnp1 := true, rMore := true, rSticky := true }

theorem witness_ConstructionAcceptsSupportedPairsOnly :
    (((64 = 8 ∨ 64 = 16 ∨ 64 = 32 ∨ 64 = 64) ∧ 61 + 3 ≤ 64) ∧ ((8 = 8 ∨ 8 = 16 ∨ 8 = 32 ∨ 8 = 64) ∧ 5 + 3 ≤ 8)) ∧
    ¬((8 = 8 ∨ 8 = 16 ∨ 8 = 32 ∨ 8 = 64) ∧ 6 + 3 ≤ 8) ∧ ¬((12 = 8 ∨ 12 = 16 ∨ 12 = 32 ∨ 12 = 64) ∧ 2 + 3 ≤ 12) := by
  decide

theorem witness_OperationMapSelectsByOp (c : BitVec 4) : ∃ r : Request f82, r.op = c :=
  ⟨{ Request.zero f82 with op := c }, rfl⟩

theorem witness_WrittenOutWordsDecode : Format.make? 8 2 = some f82 := by decide

theorem witness_DecodeInvertsEncode :
    (Instr.enc true (-16) 3 0xFFFF true).wellFormed f82 = true ∧
    (Instr.mul 0xFFFFFFFFFFFFFFFF 0).wellFormed Format.reference = true := by decide

theorem witness_EveryWordDecodesToAWellFormedInstruction :
    (decodeWord f82 (encode f82 (.mul 0x5D 0x35))).format = .r2 ∧ (decodeWord f82 (encode f82 (.pack 0 0 0))).format = .fp ∧
    (decodeWord f82 (encode f82 .reserved7)).format = .none := by decide

theorem witness_PortsOutsideTheFormatAreIgnored :
    Request.AgreeOn (decode mulRequest).format mulRequest mulRequestNoisy ∧ mulRequest ≠ mulRequestNoisy :=
  ⟨⟨rfl, rfl, rfl⟩, by decide⟩

theorem witness_StepRunsTheDecodedRequest :
    ((⟨false, true, mulRequest⟩ : Sample f82).rst = false ∧ (⟨false, true, mulRequest⟩ : Sample f82).reqValid = true) ∧
    ((⟨false, false, mulRequest⟩ : Sample f82).rst = false ∧ (⟨false, false, mulRequest⟩ : Sample f82).reqValid = false) := by
  decide

theorem witness_ResetPresentsZeroAndLeavesNoTrace :
    (⟨true, true, mulRequest⟩ : Sample f82).rst = true ∧ (⟨false, true, mulRequest⟩ : Sample f82).IsRequest :=
  ⟨rfl, rfl, rfl⟩

theorem witness_EveryStepAnswersAndKeepsTheFormat : State.reset.inputs = [] := by decide

theorem witness_ResponsesInOrderFromTheRequestAlone :
    (∀ x ∈ [(⟨false, true, mulRequest⟩ : Sample f82), ⟨false, true, mulRequestNoisy⟩], x.IsRequest) ∧
    1 < [(⟨false, true, mulRequest⟩ : Sample f82), ⟨false, true, mulRequestNoisy⟩].length := by
  constructor
  · intro x hx
    simp only [List.mem_cons, List.not_mem_nil, or_false] at hx
    rcases hx with rfl | rfl <;> exact ⟨rfl, rfl⟩
  · decide

theorem witness_EveryStepLeavesASoundResponse :
    (ask f82 (.pass 0x40)).Inv ∧
    step (ask f82 (.pass 0x40)) = .next ⟨f82, [], { Response.start f82 with z := 0x40 }, 0⟩ :=
  ⟨fun h => absurd h (by decide), rfl⟩

theorem witness_ReservedCodesAreRefusedInBand :
    (⟨false, true, { Request.zero f82 with op := 0x7 }⟩ : Sample f82).IsRequest ∧
    (Instr.reserved7.request f82).op = 0x7 ∧ (Instr.reservedE.request f82).op = 0xE ∧
    (Instr.reservedF.request f82).op = 0xF := ⟨⟨rfl, rfl⟩, by decide⟩

theorem witness_LegalOperationsRaiseNothing : (Instr.div 0x40 0x00).IsLegal := by
  unfold Instr.IsLegal
  decide

theorem witness_NarArisesOnlyWhereListed :
    (Instr.div 0x40 0x00).wellFormed f82 = true ∧
    exec (.div 0x40 0x00) (ask f82 (.div 0x40 0x00)) =
      .next ⟨f82, (ask f82 (.div 0x40 0x00)).inputs, { Response.start f82 with z := 0x80 }, 0⟩ ∧
    (Instr.pass 0x40).wellFormed f82 = true ∧
    exec (.pass 0x40) (ask f82 (.pass 0x40)) =
      .next ⟨f82, (ask f82 (.pass 0x40)).inputs, { Response.start f82 with z := 0x40 }, 0⟩ :=
  ⟨by decide, rfl, by decide, rfl⟩

theorem witness_NegReturnsTheTwosComplement :
    (0x00 : Pattern f82).toNat = 0 ∧ (0x80 : Pattern f82).toNat = 2 ^ (f82.W - 1) ∧
    (0x7F : Pattern f82).toNat = 2 ^ (f82.W - 1) - 1 ∧ (0x01 : Pattern f82).toNat = 1 := by decide

theorem witness_NegationLaws :
    (0x01 : Pattern f82) ≠ zeroPat f82.W ∧ (0x01 : Pattern f82) ≠ nar f82.W ∧ (0x81 : Pattern f82) ≠ nar f82.W := by decide

theorem witness_RlenReportsTheRegimeRun :
    (run (0x01 : Pattern f82)).term = true ∧ (run (0x01 : Pattern f82)).m = 6 ∧
    (run (0x7F : Pattern f82)).term = false ∧ (run (0x7F : Pattern f82)).m = 7 := by decide

theorem witness_DecomposedFieldsMakeUpTheMagnitude :
    (decompose 2 (0x7F : Pattern f82)).nar = false ∧ (decompose 2 (0xA3 : Pattern f82)).nar = false := by decide

theorem witness_DecomposeAtItsCorners :
    (decompose 2 (0x02 : Pattern f82)).el < 2 ∧ (0x02 : Pattern f82) ≠ zeroPat f82.W ∧ (0x02 : Pattern f82) ≠ nar f82.W := by
  decide

theorem witness_PackBorrowsAsTabulated :
    (3 < 2 ^ f82.ES ∧ 0xFFFF < 2 ^ (2 * f82.W)) ∧
    (regA 3 + f82.ES + 0 = f82.W - 2 ∧ regA (-1) + f82.ES + 3 = f82.W - 2) ∧
    (1 ≤ 1 ∧ 1 ≤ f82.ES ∧ regA 4 + f82.ES = f82.W - 2 + 1) ∧ (1 ≤ 2 ∧ 2 ≤ f82.ES ∧ regA (-6) + f82.ES = f82.W - 2 + 2) ∧
    f82.W - 2 < regA 6 ∧ f82.W - 2 < regA (-7) := by decide

theorem witness_PackedBodyIsNeverZero :
    3 < 2 ^ f82.ES ∧ 0xFFFF < 2 ^ (2 * f82.W) ∧ (packFields f82.W f82.ES 5 3 0xFFFF).sat = false ∧
    (packFields f82.W f82.ES 6 0 0).sat = true := by decide

theorem witness_PackIsMonotone :
    (3 < 2 ^ f82.ES ∧ 0 < 2 ^ f82.ES ∧ 0xFFFF < 2 ^ (2 * f82.W) ∧ 0 < 2 ^ (2 * f82.W)) ∧
    fieldsValue f82.W f82.ES 0 3 0xFFFF ≤ fieldsValue f82.W f82.ES 1 0 0 := by
  refine ⟨by decide, ?_⟩
  show fieldsValue 8 2 0 3 0xFFFF ≤ fieldsValue 8 2 1 0 0
  norm_num [fieldsValue]

theorem witness_PackInvertsDecompose :
    (0 < (0x01 : Pattern f82).toNat ∧ (0x01 : Pattern f82).toNat < 2 ^ (f82.W - 1)) ∧
    (0 < (0x7F : Pattern f82).toNat ∧ (0x7F : Pattern f82).toNat < 2 ^ (f82.W - 1)) := by decide

theorem witness_EncodedPatternIsFiniteAndNonZero : 3 < 2 ^ f82.ES ∧ 0xFFFF < 2 ^ (2 * f82.W) := by decide

theorem witness_EncSaturatesAtBothEnds :
    (f82.W : Int) - 2 ≤ 6 ∧ (-7 : Int) ≤ -((f82.W : Int) - 1) := by decide

theorem witness_EncRoundsUpIntoMaxpos :
    (3 < 2 ^ f82.ES ∧ 0 < 2 ^ (2 * f82.W)) ∧
    (3 / 2 ^ (f82.ES - 1) = 1 ∧ 3 % 2 ^ (f82.ES - 1) + 0 ≠ 0) ∧ (2 / 2 ^ (f82.ES - 1) = 1 ∧ 2 % 2 ^ (f82.ES - 1) + 0 = 0) ∧
    1 / 2 ^ (f82.ES - 1) = 0 ∧
    (0x8001 / 2 ^ (2 * f80.W - 1) = 1 ∧ 0x8001 % 2 ^ (2 * f80.W - 1) ≠ 0) ∧ f80.ES = 0 := by decide

theorem witness_EncInvertsDecompose :
    (0xFF : Pattern f82) ≠ zeroPat f82.W ∧ (0xFF : Pattern f82) ≠ nar f82.W ∧ (0x81 : Pattern f82) ≠ nar f82.W := by decide

theorem val_one : val 2 (0x40 : BitVec 8) = some 1 := by
  rw [val_finite (d := ⟨false, true, 1, true, 0, 0, 2, 0, 3, false, false⟩) (by decide) (by decide) (by decide)]
  norm_num [Dec.scale]
theorem val_after_one : val 2 (0x41 : BitVec 8) = some (9 / 8) := by
  rw [val_finite (d := ⟨false, true, 1, true, 0, 0, 2, 1, 3, false, false⟩) (by decide) (by decide) (by decide)]
  norm_num [Dec.scale]
theorem val_between : val 2 (0x81 : BitVec 9) = some (17 / 16) := by
  rw [val_finite (d := ⟨false, true, 1, true, 0, 0, 2, 1, 4, false, false⟩) (by decide) (by decide) (by decide)]
  norm_num [Dec.scale]
theorem val_negative : val 2 (0xA3 : BitVec 8) = some (-13) := by
  rw [val_finite (d := ⟨true, true, 1, true, 0, 3, 2, 5, 3, false, false⟩) (by decide) (by decide) (by decide)]
  norm_num [Dec.scale]

theorem witness_EncIsCorrectlyRounded :
    (0 < 2 ^ f82.ES ∧ 0x1000 < 2 ^ (2 * f82.W)) ∧ fieldsValue f82.W f82.ES 0 0 0x1000 = 17 / 16 ∧
    (fieldsValue f82.W f82.ES 0 0 0x1000 < (17 : ℚ) / 16 + 1 / 2 ^ 17 ∧
      (17 : ℚ) / 16 + 1 / 2 ^ 17 < fieldsValue f82.W f82.ES 0 0 0x1000 + 2 ^ (0 * 2 ^ f82.ES + 0 : Int) / 2 ^ (2 * f82.W)) := by
  refine ⟨by decide, ?_⟩
  show fieldsValue 8 2 0 0 0x1000 = 17 / 16 ∧ (fieldsValue 8 2 0 0 0x1000 < (17 : ℚ) / 16 + 1 / 2 ^ 17 ∧
    (17 : ℚ) / 16 + 1 / 2 ^ 17 < fieldsValue 8 2 0 0 0x1000 + 2 ^ (0 * 2 ^ 2 + 0 : Int) / 2 ^ 16)
  norm_num [fieldsValue]

theorem witness_MulPresentsTheProduct :
    (0x80 : Pattern f82) = nar f82.W ∧ (0x00 : Pattern f82) ≠ nar f82.W ∧ (0x40 : Pattern f82) ≠ nar f82.W ∧
    (0x00 : Pattern f82) = 0 := by decide

theorem witness_MulObeysTheSignLaws :
    (0x01 : Pattern f82) ≠ zeroPat f82.W ∧ (0x01 : Pattern f82) ≠ nar f82.W ∧ (0xFF : Pattern f82) ≠ zeroPat f82.W ∧
    (0xFF : Pattern f82) ≠ nar f82.W := by decide

theorem witness_MulIsCorrectlyRounded :
    val f82.ES (0x40 : Pattern f82) = some 1 ∧ val f82.ES (0xA3 : Pattern f82) = some (-13) ∧ (1 : ℚ) ≠ 0 ∧ (-13 : ℚ) ≠ 0 :=
  ⟨val_one, val_negative, by norm_num, by norm_num⟩

/-- The hypotheses inside `RoundsTo`, met by the patterns 0x40 and 0x41 of (8, 2) and the 9-bit pattern between them. -/
theorem witness_RoundsMagnitude :
    (0 < (0x40 : Pattern f82).toNat ∧ (0x40 : Pattern f82).toNat + 1 < 2 ^ (f82.W - 1)) ∧
    val f82.ES (0x40 : Pattern f82) = some 1 ∧ val f82.ES (BitVec.ofNat (f82.W + 1) (2 * 0x40 + 1)) = some (17 / 16) ∧
    val f82.ES ((0x40 : Pattern f82) + 1) = some (9 / 8) ∧ (1 : ℚ) ≤ 17 / 16 ∧ (17 / 16 : ℚ) ≤ 9 / 8 :=
  ⟨by decide, val_one, val_between, val_after_one, by norm_num, by norm_num⟩

theorem witness_DivPresentsTheQuotient :
    (0x00 : Pattern f82) = 0 ∧ (0x40 : Pattern f82) ≠ nar f82.W ∧ (0x40 : Pattern f82) ≠ 0 ∧ (0x80 : Pattern f82) = nar f82.W := by
  decide

theorem witness_SelfDivisionIsOne :
    (0x7F : Pattern f82) ≠ zeroPat f82.W ∧ (0x7F : Pattern f82) ≠ nar f82.W := by decide

theorem witness_DivIsCorrectlyRounded :
    val f82.ES (0xA3 : Pattern f82) = some (-13) ∧ val f82.ES (0x40 : Pattern f82) = some 1 ∧ (-13 : ℚ) ≠ 0 ∧ (1 : ℚ) ≠ 0 :=
  ⟨val_negative, val_one, by norm_num, by norm_num⟩

theorem witness_NarIsUnequalAndLeast : (0x81 : Pattern f82) ≠ nar f82.W := by decide

theorem witness_FlagsFitTogether :
    orderLe (0x80 : Pattern f82) 0x81 = true ∧ orderLe (0x81 : Pattern f82) 0x00 = true ∧
    (orderLe (0x7F : Pattern f82) 0x7F = true) ∧ (0x81 : Pattern f82) ≠ nar f82.W ∧ (0x00 : Pattern f82) ≠ nar f82.W ∧
    (0x80 : Pattern f82) ≠ 0x81 := by decide

theorem witness_OrderIsTheOrderOfValues :
    val f82.ES (0xA3 : Pattern f82) = some (-13) ∧ val f82.ES (0x40 : Pattern f82) = some 1 :=
  ⟨val_negative, val_one⟩

end Sys2Proof.Tests
end

section
/-! The scope family (00_scope.md): the state after reset, and what every step answers whatever the sample. -/

namespace Sys2Proof.Machine

/-- What the three cycles with a sample on the ports (reset, request, idle) have in common: the step answers, takes the
sample off the inputs and keeps the format, and the idle count does not fall. -/
theorem step_takes_sample {F : Format} (x : Sample F) (xs : List (Sample F)) (u : Response F) (n : Nat) :
    ∃ (r : Response F) (m : Nat), step ⟨F, x :: xs, u, n⟩ = .next ⟨F, xs, r, m⟩ ∧ n ≤ m := by
  cases hrst : x.rst with
  | true => exact ⟨Response.zero F, n, step_of_reset hrst, le_rfl⟩
  | false =>
    cases hreq : x.reqValid with
    | true =>
      obtain ⟨r, -, hexec⟩ := exec_presents (decode x.req) F
      exact ⟨r, n, (step_of_request ⟨hrst, hreq⟩).trans (hexec xs u n), le_rfl⟩
    | false => exact ⟨idleResponse F n, n + 1, step_of_idle hrst hreq, n.le_succ⟩

/-- Settles O11, by cases on the inputs: with none left the cycle is idle, and a sample is taken by
`step_takes_sample`. -/
theorem everyStepAnswersAndKeepsTheFormat : Obligations.EveryStepAnswersAndKeepsTheFormat := by
  rintro ⟨F, inputs, u, n⟩
  cases inputs with
  | nil => exact ⟨idleResponse F n, n + 1, step_of_no_input rfl, n.le_succ, fun _ => idleResponse_rspValid F n⟩
  | cons x xs =>
    obtain ⟨r, m, hstep, hle⟩ := step_takes_sample x xs u n
    exact ⟨r, m, hstep, hle, fun hnil => absurd hnil (List.cons_ne_nil x xs)⟩

/-- Settles O10: each field of `State.reset` is the value its definition gives. -/
theorem resetStateIsAsNamed : Obligations.ResetStateIsAsNamed :=
  ⟨rfl, rfl, rfl, rfl, rfl⟩

end Sys2Proof.Machine
end

section
/-! The state family (10_state.md), first part: the response invariant and the reset cycle. -/

namespace Sys2Proof.Machine

/-! ### Pack and round -/

/-- A saturated body is MAXPOS or MINPOS, and its round bit is 0 (41_rounding_engine.md R109 item 2). -/
theorem packFields_body_of_sat {w es : Nat} (hw : 2 ≤ w) {k : Int} {e ff : Nat}
    (h : (packFields w es k e ff).sat = true) :
    ((packFields w es k e ff).p.toNat = 2 ^ (w - 1) - 1 ∨ (packFields w es k e ff).p.toNat = 1) ∧
      (packFields w es k e ff).bnp1 = false := by
  have hlong : maxReg w < regA k := by simpa using h
  have hpow : 2 ≤ 2 ^ (w - 1) := Nat.le_pow (by omega)
  rw [packFields_of_saturated hlong]
  refine ⟨?_, rfl⟩
  by_cases hk : 0 ≤ k
  · left
    rw [if_pos hk, BitVec.toNat_setWidth, maxpos_toNat (by omega), Nat.mod_eq_of_lt (by omega)]
  · right
    rw [if_neg hk, BitVec.toNat_setWidth, minpos_toNat (by omega), Nat.mod_eq_of_lt (by omega)]

/-- Without a round bit there is no increment (41_rounding_engine.md R101). -/
theorem roundApply_inc_of_not_bnp1 {w : Nat} (p : BitVec (w - 1)) (more s : Bool) :
    (roundApply p false more s).inc = false := by
  simp [roundApply, rneInc]

/-- Without an increment the body is left alone, so its regime does not change (41_rounding_engine.md R106). -/
theorem roundApply_inc_of_ovf {w : Nat} {p : BitVec (w - 1)} {bnp1 more s : Bool}
    (h : (roundApply p bnp1 more s).ovf = true) : (roundApply p bnp1 more s).inc = true := by
  by_contra hinc
  have hrne : rneInc (p.getLsbD 0) bnp1 (rsAccumulate more s) = false := by
    simp only [roundApply] at hinc
    split at hinc <;> simpa using hinc
  simp [roundApply, hrne] at h

/-! ### Sound responses -/

/-- A regime port of 0 is in range. -/
theorem regimePort_zero_bounds (F : Format) :
    -((F.W : Int) - 1) ≤ (0 : RegimePort F).toInt ∧ (0 : RegimePort F).toInt ≤ (F.W : Int) - 2 := by
  have hW := F.eight_le_W
  have hzero : (0 : RegimePort F).toInt = 0 := BitVec.toInt_zero
  rw [hzero]
  omega

/-- The one refused response is sound: it is the case `err` = 1 of R174, and every other port is 0. -/
theorem Response.sound_refused (F : Format) : (Response.refused F).Sound where
  error_code := rfl
  regime_range := regimePort_zero_bounds F
  exponent_length := by simp [Response.refused, Response.start, Response.zero]
  fraction_length := by simp [Response.refused, Response.start, Response.zero]
  saturated_body := nofun
  overflow_increments := nofun
  one_special := nofun

/-- A response on the result and rounding ports is sound when a saturated body is MAXPOS or MINPOS and left alone, and the
regime changes only by an increment. -/
theorem Response.sound_of_result {F : Format} {z : Pattern F} {flag bnp1 more sat inc ovf : Bool} {p : Body F}
    (hsat : sat = true → (p.toNat = 2 ^ (F.W - 1) - 1 ∨ p.toNat = 1) ∧ inc = false)
    (hovf : ovf = true → inc = true) :
    Response.Sound { Response.start F with
      z := z, flag := flag, p := p, bnp1 := bnp1, more := more, sat := sat, inc := inc, ovf := ovf } where
  error_code := rfl
  regime_range := regimePort_zero_bounds F
  exponent_length := by simp [Response.start, Response.zero]
  fraction_length := by simp [Response.start, Response.zero]
  saturated_body := hsat
  overflow_increments := hovf
  one_special := nofun

/-- A response that only gives a pattern or a flag is sound. -/
theorem Response.sound_of_value {F : Format} {z : Pattern F} {flag : Bool} :
    Response.Sound { Response.start F with z := z, flag := flag } :=
  Response.sound_of_result (sat := false) (ovf := false) nofun nofun

/-- A response on the field ports is sound when its regime value and its lengths are in range (10_state.md R26). -/
theorem Response.sound_of_fields {F : Format} {sign rs term zero nar : Bool} {m el fl : LengthPort F} {k : RegimePort F}
    {e : ExponentPort F} {f : BitVec F.FW}
    (hk : -((F.W : Int) - 1) ≤ k.toInt ∧ k.toInt ≤ (F.W : Int) - 2) (hel : el.toNat ≤ F.ES)
    (hfl : fl.toNat ≤ F.W - 3 - F.ES) (hone : ¬(zero = true ∧ nar = true)) :
    Response.Sound { Response.start F with
      dSign := sign, dRs := rs, dM := m, dTerm := term, dK := k, dE := e, dEl := el, dF := f, dFl := fl, dZero := zero,
      dNar := nar } where
  error_code := rfl
  regime_range := hk
  exponent_length := hel
  fraction_length := hfl
  saturated_body := nofun
  overflow_increments := nofun
  one_special := hone

/-! ### The ranges of the decomposed fields (10_state.md R26) -/

/-- The regime value of a run is in range on its port. -/
theorem run_k_port_bounds {F : Format} (x : Pattern F) :
    -((F.W : Int) - 1) ≤ (BitVec.ofInt F.KW (run x).k).toInt ∧
      (BitVec.ofInt F.KW (run x).k).toInt ≤ (F.W : Int) - 2 := by
  have hW := F.eight_le_W
  have hk := run_k_bounds x (by omega)
  rwa [F.regimePort_toInt (by omega) (by omega)]

/-- Regime and terminator take at least two bits of the body, or all of it, so at most W − 3 bits are left for exponent and
fraction. -/
theorem decompose_rem_le {w : Nat} (es : Nat) (x : BitVec w) (h : 3 ≤ w) :
    w - 1 - (decompose es x).m - (decompose es x).term.toNat ≤ w - 3 := by
  obtain ⟨hm, -, ht, -⟩ := decompose_run es x
  generalize (if x.getLsbD (w - 1) then negW x else x) = mag at hm ht
  have hb := run_m_bounds mag (by omega)
  rw [hm, ht, run_term]
  by_cases hlt : (run mag).m < w - 1
  · simp only [decide_eq_true hlt, Bool.toNat_true]
    omega
  · simp only [decide_eq_false hlt, Bool.toNat_false]
    omega

/-- At most ES exponent bits are present, and the fraction has what they and the regime leave. -/
theorem decompose_el_fl_le {F : Format} (x : Pattern F) :
    (decompose F.ES x).el ≤ F.ES ∧ (decompose F.ES x).fl ≤ F.W - 3 - F.ES := by
  have hW := F.eight_le_W
  have hrem := decompose_rem_le F.ES x (by omega)
  obtain ⟨hel, hsum⟩ := decompose_lengths F.ES x
  omega

theorem zeroPat_ne_nar (F : Format) : zeroPat F.W ≠ nar F.W := by
  intro h
  have hnat := congrArg BitVec.toNat h
  rw [zeroPat_toNat, nar_toNat (by have := F.eight_le_W; omega)] at hnat
  exact absurd hnat (Nat.two_pow_pos _).ne

/-- The response of DEC is sound (40_field_codec.md R77). -/
theorem sound_decResponse {F : Format} (x : Pattern F) : (decResponse F (decompose F.ES x)).Sound := by
  obtain ⟨hel, hfl⟩ := decompose_el_fl_le x
  obtain ⟨-, -, -, hk⟩ := decompose_run F.ES x
  refine Response.sound_of_fields ?_ ?_ ?_ ?_
  · rw [hk]
    exact run_k_port_bounds _
  · rw [BitVec.toNat_ofNat]
    exact (Nat.mod_le _ _).trans hel
  · rw [BitVec.toNat_ofNat]
    exact (Nat.mod_le _ _).trans hfl
  · simp only [decompose, decide_eq_true_eq]
    rintro ⟨rfl, h⟩
    exact zeroPat_ne_nar F h

/-! ### The invariant of presented responses -/

/-- A state that answers with a sound response meets the invariant. -/
theorem State.inv_of_answer {s t : State} {r : Response s.fmt} (h : s.answer r = .next t) (hr : r.Sound) : t.Inv := by
  cases h
  exact fun _ => hr

/-- A state that presents no response meets the invariant. -/
theorem State.inv_of_not_rspValid {s : State} (h : s.rsp.rspValid = false) : s.Inv :=
  fun hv => absurd hv (by simp [h])

/-- Every meaning presents a sound response, whatever its operands are. -/
theorem exec_inv {i : Instr} {s t : State} (h : exec i s = .next t) : t.Inv := by
  have hW := s.fmt.eight_le_W
  cases i with
  | pass a | neg a | mul a b | div a b | eq a b | le a b | lt a b | gt a b =>
    exact State.inv_of_answer h Response.sound_of_value
  | reserved7 | reservedE | reservedF => exact State.inv_of_answer h (Response.sound_refused s.fmt)
  | rlen a =>
    exact State.inv_of_answer h
      (Response.sound_of_fields (el := 0) (fl := 0) (run_k_port_bounds _) (by simp) (by simp) nofun)
  | dec a => exact State.inv_of_answer h (sound_decResponse _)
  | pack k e ff =>
    exact State.inv_of_answer h
      (Response.sound_of_result (fun hsat => ⟨(packFields_body_of_sat (by omega) hsat).1, rfl⟩) nofun)
  | round p bnp1 more sticky => exact State.inv_of_answer h (Response.sound_of_result nofun roundApply_inc_of_ovf)
  | enc sign k e ff sticky =>
    refine State.inv_of_answer h (Response.sound_of_result (fun hsat => ?_) roundApply_inc_of_ovf)
    obtain ⟨hbody, hbnp1⟩ := packFields_body_of_sat (by omega) hsat
    refine ⟨hbody, ?_⟩
    simp only [encodeRound, hbnp1, roundApply_inc_of_not_bnp1]

/-- Settles O13: a request is answered by a sound response (`exec_inv`), and a reset or idle cycle presents none. -/
theorem everyStepLeavesASoundResponse : Obligations.EveryStepLeavesASoundResponse := by
  rintro ⟨F, inputs, u, n⟩ t - hstep
  cases inputs with
  | nil =>
    rw [step_of_no_input rfl] at hstep
    cases hstep
    exact State.inv_of_not_rspValid rfl
  | cons x xs =>
    cases hrst : x.rst with
    | true =>
      rw [step_of_reset hrst] at hstep
      cases hstep
      exact State.inv_of_not_rspValid rfl
    | false =>
      cases hreq : x.reqValid with
      | true =>
        rw [step_of_request ⟨hrst, hreq⟩] at hstep
        exact exec_inv hstep
      | false =>
        rw [step_of_idle hrst hreq] at hstep
        cases hstep
        exact State.inv_of_not_rspValid rfl

/-- Settles O14: `State.reset` presents no response. -/
theorem resetStateMeetsTheInvariant : Obligations.ResetStateMeetsTheInvariant :=
  State.inv_of_not_rspValid rfl

/-! ### The reset cycle -/

/-- A run whose first step answers goes on from the next state. -/
theorem run_succ_of_next {M : Host.Core} {k : Nat} {s s' : M.State} (h : M.step s = .next s') :
    M.run (k + 1) s = M.run k s' := by
  rw [Host.Core.run, h]

/-- A run of one step is that step. -/
theorem run_one (M : Host.Core) (s : M.State) : M.run 1 s = M.step s := by
  rw [Host.Core.run]
  cases M.step s <;> rfl

/-- Two steps of the block, where the first answers, end as the second does. -/
theorem run_two_of_next {s s' : State} (h : step s = .next s') : Host.Core.run core 2 s = step s' :=
  (run_succ_of_next (M := core) (s := s) (s' := s') h).trans (run_one core s')

/-- The answer to a request does not depend on what the response ports held before. -/
theorem step_of_request_rsp_irrelevant {F : Format} {x : Sample F} (h : x.IsRequest) (xs : List (Sample F))
    (u v : Response F) (n : Nat) : step ⟨F, x :: xs, u, n⟩ = step ⟨F, x :: xs, v, n⟩ := by
  obtain ⟨r, -, hexec⟩ := exec_presents (decode x.req) F
  rw [step_of_request h, step_of_request h, hexec, hexec]

/-- Settles O9: the reset cycle is `step_of_reset`, and the request after it finds ports that do not matter. -/
theorem resetPresentsZeroAndLeavesNoTrace : Obligations.ResetPresentsZeroAndLeavesNoTrace := by
  intro F x y rest u v n hrst
  refine ⟨step_of_reset hrst, fun hy => ?_⟩
  rw [run_two_of_next (step_of_reset hrst)]
  exact step_of_request_rsp_irrelevant hy rest _ v n

end Sys2Proof.Machine
end

section
/-! The state family (10_state.md), second part: the field layout and the values of the named patterns. -/

namespace Sys2Proof.Machine

/-! ### The layout of the fields (10_state.md R29) -/

/-- The `c` counted bits, read as a number: all ones or all zeros. -/
theorem countRun_bits {w : Nat} (x : BitVec w) (rs : Bool) (i : Nat) :
    x.toNat % 2 ^ i / 2 ^ (i - countRun x rs i) = if rs then 2 ^ countRun x rs i - 1 else 0 := by
  have hle := countRun_le x rs i
  have hrun := countRun_run x rs i
  generalize countRun x rs i = c at hle hrun ⊢
  refine Nat.eq_of_testBit_eq fun j => ?_
  rw [Nat.testBit_div_two_pow, Nat.testBit_mod_two_pow, BitVec.testBit_toNat]
  by_cases hj : j < c
  · have hbit := hrun (c - 1 - j) (by omega)
    rw [show i - 1 - (c - 1 - j) = j + (i - c) by omega] at hbit
    rw [hbit, decide_eq_true (show j + (i - c) < i by omega)]
    cases rs <;> simp [hj]
  · rw [decide_eq_false (show ¬j + (i - c) < i by omega)]
    cases rs <;> simp [hj]

/-- Looking one bit further down doubles a number and adds that bit. -/
theorem div_two_pow_eq_double_add_bit (x n : Nat) :
    x / 2 ^ n = 2 * (x / 2 ^ (n + 1)) + (x.testBit n).toNat := by
  rw [Nat.toNat_testBit, Nat.pow_succ, ← Nat.div_div_eq_div_mul, Nat.div_add_mod]

/-- A body starts with its regime run and the terminator, if there is one (40_field_codec.md R76). -/
theorem run_leading_bits {w : Nat} (x : BitVec w) (hx : x.toNat < 2 ^ (w - 1)) :
    x.toNat / 2 ^ (w - 1 - (run x).m - (run x).term.toNat) =
      if (run x).rs then (if (run x).term then 2 ^ ((run x).m + 1) - 2 else 2 ^ (run x).m - 1)
      else (if (run x).term then 1 else 0) := by
  have hbits := countRun_bits x (run x).rs (w - 1)
  have hstop := countRun_stop x (run x).rs (w - 1)
  have hm : countRun x (run x).rs (w - 1) = (run x).m := rfl
  rw [hm, Nat.mod_eq_of_lt hx] at hbits
  rw [hm] at hstop
  rw [run_term]
  generalize (run x).m = m at hbits hstop ⊢
  generalize (run x).rs = rs at hbits hstop ⊢
  by_cases hlt : m < w - 1
  · have hbit : x.toNat.testBit (w - 1 - m - 1) = !rs := by
      rw [BitVec.testBit_toNat, Nat.sub_right_comm]
      exact hstop hlt
    rw [decide_eq_true hlt, Bool.toNat_true, div_two_pow_eq_double_add_bit, hbit,
      Nat.sub_add_cancel (by omega : 1 ≤ w - 1 - m), hbits]
    cases rs with
    | false => rfl
    | true =>
      simp only [if_true, Bool.not_true, Bool.toNat_false, Nat.pow_succ]
      omega
  · rw [decide_eq_false hlt, Bool.toNat_false]
    cases rs <;> simpa using hbits

theorem negW_toNat_of_pos {w : Nat} {x : BitVec w} (h : 0 < x.toNat) : (negW x).toNat = 2 ^ w - x.toNat := by
  rw [negW_toNat, Nat.mod_eq_of_lt (by have := Nat.two_pow_pos w; omega)]

/-- The sign bit tells whether a pattern is at least 2^(W−1). -/
theorem sign_eq_decide {w : Nat} (x : BitVec w) : x.getLsbD (w - 1) = decide (2 ^ (w - 1) ≤ x.toNat) := by
  rw [← BitVec.msb_eq_getLsbD_last, BitVec.msb_eq_decide]

/-- The magnitude of every pattern but NAR is a body: its sign bit is 0. -/
theorem magnitude_lt {w : Nat} (hw : 1 ≤ w) {x : BitVec w} (hn : x ≠ nar w) :
    (if x.getLsbD (w - 1) then negW x else x).toNat < 2 ^ (w - 1) := by
  have hx : x.toNat ≠ 2 ^ (w - 1) := fun h => hn (BitVec.eq_of_toNat_eq (h.trans (nar_toNat hw).symm))
  have hdouble := two_pow_pred_double hw
  rw [sign_eq_decide]
  by_cases h : 2 ^ (w - 1) ≤ x.toNat
  · have hpow := Nat.two_pow_pos (w - 1)
    rw [decide_eq_true h, if_pos rfl, negW_toNat_of_pos (by omega)]
    omega
  · rw [decide_eq_false h, if_neg Bool.false_ne_true]
    omega

/-- Exponent and fraction are the low bits of the magnitude: the el bits present stand above the fl fraction bits, and `e`
is those bits with its missing low bits 0 (40_field_codec.md R76). -/
theorem decompose_tail {w : Nat} (es : Nat) (x : BitVec w) :
    ∃ eb, eb < 2 ^ (decompose es x).el ∧ (decompose es x).e = eb * 2 ^ (es - (decompose es x).el) ∧
      (if x.getLsbD (w - 1) then negW x else x).toNat %
          2 ^ (w - 1 - (decompose es x).m - (decompose es x).term.toNat) =
        eb * 2 ^ (decompose es x).fl + (decompose es x).f := by
  obtain ⟨-, hsum⟩ := decompose_lengths es x
  refine ⟨(if x.getLsbD (w - 1) then negW x else x).toNat %
    2 ^ (w - 1 - (decompose es x).m - (decompose es x).term.toNat) / 2 ^ (decompose es x).fl, ?_, ?_, ?_⟩
  · rw [Nat.div_lt_iff_lt_mul (Nat.two_pow_pos _), ← Nat.pow_add, hsum]
    exact Nat.mod_lt _ (Nat.two_pow_pos _)
  · rw [← Nat.shiftRight_eq_div_pow, ← Nat.shiftLeft_eq]
    rfl
  · exact (Nat.div_add_mod' _ _).symm

/-- Settles O23: the magnitude is its regime (`run_leading_bits`) above its tail (`decompose_tail`). -/
theorem decomposedFieldsMakeUpTheMagnitude : Obligations.DecomposedFieldsMakeUpTheMagnitude := by
  intro F x d rem mag regime
  have hW := F.eight_le_W
  obtain ⟨hel, hsum⟩ := decompose_lengths F.ES x
  obtain ⟨eb, heb, he, htail⟩ := decompose_tail F.ES x
  have hm : 1 ≤ d.m := (run_m_bounds mag (by omega)).1
  have hterm : d.m + d.term.toNat ≤ F.W - 1 := run_m_add_term_le mag (by omega)
  have hfl : d.fl = rem - d.el := (Nat.sub_eq_of_eq_add' hsum.symm).symm
  refine ⟨rfl, hm, hterm, hel, hfl, decompose_f_lt F.ES x, eb, heb, he, fun hnar => ?_⟩
  have hmag : mag.toNat < 2 ^ (F.W - 1) := magnitude_lt (by omega) (of_decide_eq_false hnar)
  have hregime : mag.toNat / 2 ^ rem = regime := run_leading_bits mag hmag
  calc mag.toNat = mag.toNat / 2 ^ rem * 2 ^ rem + mag.toNat % 2 ^ rem := (Nat.div_add_mod' _ _).symm
    _ = regime * 2 ^ rem + (eb * 2 ^ d.fl + d.f) := by rw [hregime]; exact congrArg _ htail
    _ = regime * 2 ^ rem + eb * 2 ^ d.fl + d.f := (Nat.add_assoc _ _ _).symm

/-! ### The values of the named patterns (10_state.md R32) -/

/-- The run count is the one number of leading bits that equal `rs` and are not followed by another. -/
theorem countRun_eq {w : Nat} {x : BitVec w} {rs : Bool} {i m : Nat} (hm : m ≤ i)
    (hrun : ∀ j, j < m → x.getLsbD (i - 1 - j) = rs) (hstop : m < i → x.getLsbD (i - 1 - m) = !rs) :
    countRun x rs i = m := by
  have hle := countRun_le x rs i
  rcases Nat.lt_trichotomy (countRun x rs i) m with h | h | h
  · have := (countRun_stop x rs i (by omega)).symm.trans (hrun _ h)
    simp at this
  · exact h
  · have := (hstop (by omega)).symm.trans (countRun_run x rs i m h)
    simp at this

/-- The run of a pattern, from its bits (40_field_codec.md R74). -/
theorem run_eq {w : Nat} {x : BitVec w} {rs : Bool} {m : Nat} {k : Int} (hpos : 1 ≤ m) (hm : m ≤ w - 1)
    (hrun : ∀ j, j < m → x.getLsbD (w - 1 - 1 - j) = rs) (hstop : m < w - 1 → x.getLsbD (w - 1 - 1 - m) = !rs)
    (hk : (if rs then (m : Int) - 1 else -(m : Int)) = k) : run x = ⟨rs, m, decide (m < w - 1), k⟩ := by
  have hrs : x.getLsbD (w - 2) = rs := hrun 0 hpos
  simp only [run, hrs, countRun_eq hm hrun hstop, hk]

theorem run_one_pattern {w : Nat} (hw : 3 ≤ w) : run (one w) = ⟨true, 1, true, 0⟩ := by
  have hbit (i : Nat) : (one w).getLsbD i = decide (w - 2 = i) := by
    rw [← BitVec.testBit_toNat, one_toNat (by omega), Nat.testBit_two_pow]
  rw [run_eq (rs := true) (m := 1) (k := 0) le_rfl (by omega)
      (fun j hj => (hbit _).trans (decide_eq_true (by omega)))
      (fun _ => (hbit _).trans (decide_eq_false (by omega))) rfl,
    decide_eq_true (by omega)]

theorem run_maxpos {w : Nat} (hw : 2 ≤ w) : run (maxpos w) = ⟨true, w - 1, false, (w : Int) - 2⟩ := by
  have hbit (i : Nat) : (maxpos w).getLsbD i = decide (i < w - 1) := by
    rw [← BitVec.testBit_toNat, maxpos_toNat (by omega), Nat.testBit_two_pow_sub_one]
  rw [run_eq (rs := true) (m := w - 1) (k := (w : Int) - 2) (by omega) le_rfl
      (fun j hj => (hbit _).trans (decide_eq_true (by omega))) (fun h => absurd h (lt_irrefl _))
      (by rw [if_pos rfl]; omega),
    decide_eq_false (lt_irrefl _)]

theorem run_minpos {w : Nat} (hw : 3 ≤ w) : run (minpos w) = ⟨false, w - 2, true, -((w : Int) - 2)⟩ := by
  have hbit (i : Nat) : (minpos w).getLsbD i = decide (0 = i) := by
    rw [← BitVec.testBit_toNat, minpos_toNat (by omega), ← Nat.pow_zero 2, Nat.testBit_two_pow]
  rw [run_eq (rs := false) (m := w - 2) (k := -((w : Int) - 2)) (by omega) (by omega)
      (fun j hj => (hbit _).trans (decide_eq_false (by omega)))
      (fun _ => (hbit _).trans (decide_eq_true (by omega))) (by rw [if_neg Bool.false_ne_true]; omega),
    decide_eq_true (by omega)]

/-- A positive pattern whose bits below the regime are all 0 has the value 2^(k·2^ES): its exponent and its fraction
are 0. -/
theorem val_of_run {w : Nat} (es : Nat) {x : BitVec w} {r : Run} (hz : x ≠ zeroPat w) (hn : x ≠ nar w)
    (hsign : x.getLsbD (w - 1) = false) (hr : run x = r) (htail : x.toNat % 2 ^ (w - 1 - r.m - r.term.toNat) = 0) :
    val es x = some (2 ^ (r.k * 2 ^ es)) := by
  obtain ⟨hm, -, ht, hk⟩ := decompose_run es x
  rw [hsign, if_neg Bool.false_ne_true, hr] at hm ht hk
  obtain ⟨eb, -, he, hsum⟩ := decompose_tail es x
  rw [hsign, if_neg Bool.false_ne_true, hm, ht, htail] at hsum
  obtain ⟨heb, hf⟩ : eb * 2 ^ (decompose es x).fl = 0 ∧ (decompose es x).f = 0 := by omega
  obtain rfl : eb = 0 := (Nat.mul_eq_zero.mp heb).resolve_right (Nat.two_pow_pos _).ne'
  have hs : (decompose es x).sign = false := hsign
  rw [val_finite hn hz rfl, hs, hf, Dec.scale, hk, he]
  simp

/-- Negation changes the sign of every pattern but ZERO and NAR. -/
theorem negW_sign {w : Nat} (hw : 1 ≤ w) {x : BitVec w} (hz : x ≠ zeroPat w) (hn : x ≠ nar w) :
    (negW x).getLsbD (w - 1) = !x.getLsbD (w - 1) := by
  have hx0 : x.toNat ≠ 0 := fun h => hz (BitVec.eq_of_toNat_eq (h.trans (zeroPat_toNat w).symm))
  have hxn : x.toNat ≠ 2 ^ (w - 1) := fun h => hn (BitVec.eq_of_toNat_eq (h.trans (nar_toNat hw).symm))
  have hdouble := two_pow_pred_double hw
  have hlt := x.isLt
  rw [sign_eq_decide, sign_eq_decide, negW_toNat_of_pos (by omega), ← decide_not, decide_eq_decide]
  omega

theorem negW_negW {w : Nat} (x : BitVec w) : negW (negW x) = x := by
  rw [negW_eq_neg, negW_eq_neg, BitVec.neg_neg]

theorem negW_zeroPat (w : Nat) : negW (zeroPat w) = zeroPat w := by
  apply BitVec.eq_of_toNat_eq
  rw [negW_toNat, zeroPat_toNat, Nat.sub_zero, Nat.mod_self]

theorem negW_nar {w : Nat} (hw : 1 ≤ w) : negW (nar w) = nar w := by
  have hdouble := two_pow_pred_double hw
  have hpow := Nat.two_pow_pos (w - 1)
  apply BitVec.eq_of_toNat_eq
  rw [negW_toNat_of_pos (by rw [nar_toNat hw]; omega), nar_toNat hw]
  omega

/-- The negation of a pattern other than ZERO and NAR is again one. -/
theorem negW_finite {w : Nat} (hw : 1 ≤ w) {x : BitVec w} (hz : x ≠ zeroPat w) (hn : x ≠ nar w) :
    negW x ≠ zeroPat w ∧ negW x ≠ nar w :=
  ⟨fun h => hz (by rw [← negW_negW x, h, negW_zeroPat]), fun h => hn (by rw [← negW_negW x, h, negW_nar hw])⟩

/-- Negation changes the sign field and no other, for every pattern but ZERO and NAR (40_field_codec.md R78). -/
theorem decompose_negW {w : Nat} (hw : 1 ≤ w) (es : Nat) {x : BitVec w} (hz : x ≠ zeroPat w) (hn : x ≠ nar w) :
    decompose es (negW x) = { decompose es x with sign := !(decompose es x).sign } := by
  obtain ⟨hz', hn'⟩ := negW_finite hw hz hn
  have hsign := negW_sign hw hz hn
  cases hs : x.getLsbD (w - 1) <;> simp [decompose, hsign, hs, hz, hz', hn, hn', negW_negW]

/-- Negation negates the value of every pattern but ZERO and NAR. -/
theorem val_negW {w : Nat} (hw : 1 ≤ w) (es : Nat) {x : BitVec w} {v : ℚ} (hz : x ≠ zeroPat w) (hn : x ≠ nar w)
    (hv : val es x = some v) : val es (negW x) = some (-v) := by
  obtain ⟨hz', hn'⟩ := negW_finite hw hz hn
  rw [val_finite hn hz rfl, Option.some_inj] at hv
  rw [val_finite hn' hz' (decompose_negW hw es hz hn), ← hv]
  cases (decompose es x).sign <;> simp [Dec.scale]

/-- A pattern between ZERO and NAR is neither, and its sign bit is 0. -/
theorem positive_pattern {w : Nat} (hw : 1 ≤ w) {x : BitVec w} (hpos : 0 < x.toNat) (hlt : x.toNat < 2 ^ (w - 1)) :
    x ≠ zeroPat w ∧ x ≠ nar w ∧ x.getLsbD (w - 1) = false := by
  refine ⟨fun h => ?_, fun h => ?_, ?_⟩
  · rw [h, zeroPat_toNat] at hpos
    omega
  · rw [h, nar_toNat hw] at hlt
    omega
  · rw [sign_eq_decide]
    exact decide_eq_false (by omega)

theorem one_positive {w : Nat} (hw : 2 ≤ w) :
    one w ≠ zeroPat w ∧ one w ≠ nar w ∧ (one w).getLsbD (w - 1) = false := by
  have hpow : (one w).toNat < 2 ^ (w - 1) := by
    rw [one_toNat hw]
    exact Nat.pow_lt_pow_right (by omega) (by omega)
  exact positive_pattern (by omega) (by rw [one_toNat hw]; exact Nat.two_pow_pos _) hpow

theorem val_one_pattern {w : Nat} (hw : 3 ≤ w) (es : Nat) : val es (one w) = some 1 := by
  obtain ⟨hz, hn, hs⟩ := one_positive (w := w) (by omega)
  rw [val_of_run es hz hn hs (run_one_pattern hw) ?_]
  · simp
  · rw [one_toNat (by omega)]
    exact Nat.mod_eq_zero_of_dvd (Nat.pow_dvd_pow 2 (Nat.sub_le _ _))

theorem val_maxpos {w : Nat} (hw : 2 ≤ w) (es : Nat) : val es (maxpos w) = some (2 ^ maxScale w es) := by
  have hpow : 2 ≤ 2 ^ (w - 1) := Nat.le_pow (by omega)
  have hnat := maxpos_toNat (w := w) (by omega)
  obtain ⟨hz, hn, hs⟩ := positive_pattern (x := maxpos w) (by omega) (by omega) (by omega)
  rw [val_of_run es hz hn hs (run_maxpos hw) ?_]
  · have hscale : ((w : Int) - 2) * 2 ^ es = (maxScale w es : Int) := by
      rw [maxScale]
      push_cast [Nat.cast_sub hw]
      ring
    rw [hscale, zpow_natCast]
  · simp [Nat.mod_one]

theorem val_minpos {w : Nat} (hw : 3 ≤ w) (es : Nat) : val es (minpos w) = some (1 / 2 ^ maxScale w es) := by
  have hpow : 2 ≤ 2 ^ (w - 1) := Nat.le_pow (by omega)
  have hnat := minpos_toNat (w := w) (by omega)
  obtain ⟨hz, hn, hs⟩ := positive_pattern (x := minpos w) (by omega) (by omega) (by omega)
  rw [val_of_run es hz hn hs (run_minpos hw) ?_]
  · have hscale : -((w : Int) - 2) * 2 ^ es = -(maxScale w es : Int) := by
      rw [maxScale]
      push_cast [Nat.cast_sub (show 2 ≤ w by omega)]
      ring
    rw [hscale, zpow_neg, zpow_natCast, one_div]
  · rw [show w - 1 - (w - 2) - true.toNat = 0 by rw [Bool.toNat_true]; omega, Nat.pow_zero, Nat.mod_one]

/-- USEED to the power W − 2 is 2^MAXSCALE (00_scope.md R8). -/
theorem useed_pow (w es : Nat) : (useed es : ℚ) ^ (w - 2) = 2 ^ maxScale w es := by
  rw [useed, maxScale]
  push_cast
  rw [← pow_mul, mul_comm]

/-- Settles O53: ONE, MAXPOS and MINPOS are nothing but a regime (`val_of_run`), and −ONE negates the value of ONE. -/
theorem valuesOfTheNamedPatterns : Obligations.ValuesOfTheNamedPatterns := by
  intro F
  have hW := F.eight_le_W
  have hone := val_one_pattern (w := F.W) (by omega) F.ES
  obtain ⟨hz, hn, -⟩ := one_positive (w := F.W) (by omega)
  have hmax := val_maxpos (w := F.W) (by omega) F.ES
  exact ⟨val_nar _, val_zero _ (zeroPat_ne_nar F), hone, val_negW (by omega) _ hz hn hone, hmax,
    hmax.trans (congrArg some (useed_pow _ _).symm), val_minpos (by omega) _⟩

end Sys2Proof.Machine
end

section
/-! The memory family (20_memory.md): the responses to a list of requests. -/

namespace Sys2Proof.Machine

/-- `respond` says what the block answers: the step on a request presents its value, whatever the state and the inputs
that follow, and changes nothing else (20_memory.md R44). -/
def AnswersEveryRequest (respond : (F : Format) → Request F → Response F) : Prop :=
  ∀ (F : Format) (x : Sample F) (xs : List (Sample F)) (u : Response F) (n : Nat), x.IsRequest →
    step ⟨F, x :: xs, u, n⟩ = .next ⟨F, xs, respond F x.req, n⟩

/-- The response of each meaning (`exec_presents`), chosen for every format and request. -/
theorem exists_answersEveryRequest :
    ∃ respond, AnswersEveryRequest respond ∧ ∀ F req, (respond F req).rspValid = true := by
  choose respond hvalid hexec using fun F (req : Request F) => exec_presents (decode req) F
  exact ⟨respond, fun F x xs u n hx => (step_of_request hx).trans (hexec F x.req xs u n), hvalid⟩

/-- `run_succ_of_next` for the block, whose first step is `step`. -/
theorem run_core_succ_of_next {k : Nat} {s s' : State} (h : step s = .next s') :
    Host.Core.run core (k + 1) s = Host.Core.run core k s' :=
  run_succ_of_next (M := core) (s := s) (s' := s') h

/-- After `i + 1` steps on a list of requests the block presents the answer to request `i`, and the requests after it are
still to come. -/
theorem run_requests {respond : (F : Format) → Request F → Response F} (hrespond : AnswersEveryRequest respond)
    {F : Format} (rest : List (Sample F)) (n : Nat) {xs : List (Sample F)} (hxs : ∀ x ∈ xs, x.IsRequest)
    (u : Response F) (i : Nat) (hi : i < xs.length) :
    Host.Core.run core (i + 1) (State.mk F (xs ++ rest) u n) =
      .next (State.mk F (xs.drop (i + 1) ++ rest) (respond F xs[i].req) n) := by
  induction xs generalizing u i with
  | nil => exact absurd hi (Nat.not_lt_zero i)
  | cons x xs ih =>
    obtain ⟨hx, hxs⟩ := List.forall_mem_cons.mp hxs
    have hstep := hrespond F x (xs ++ rest) u n hx
    cases i with
    | zero => exact (run_one core _).trans hstep
    | succ i => exact (run_core_succ_of_next hstep).trans (ih hxs _ i (Nat.lt_of_succ_lt_succ hi))

/-- Settles O12: one function answers every request (`exists_answersEveryRequest`), and a run applies it to the requests
in their order (`run_requests`). -/
theorem responsesInOrderFromTheRequestAlone : Obligations.ResponsesInOrderFromTheRequestAlone := by
  obtain ⟨respond, hrespond, hvalid⟩ := exists_answersEveryRequest
  exact ⟨respond, fun F xs rest u n hxs i hi =>
    ⟨run_requests hrespond rest n hxs u i hi, hvalid F xs[i].req⟩⟩

end Sys2Proof.Machine
end

section
/-! The encoding family (30_encoding.md): the request word and its ports, the canonical word of an instruction, what the
decoder reads, and the step on a decoded request. -/

namespace Sys2Proof

/-! ### The request word and its ports (R53) -/

theorem extractLsb'_self_of_eq_zero {w start : Nat} (h : start = 0) (x : BitVec w) : x.extractLsb' start w = x := by
  rw [h, BitVec.extractLsb'_eq_self]

theorem cast_extractLsb'_zero {w n : Nat} (h : n = w) (x : BitVec w) : (x.extractLsb' 0 n).cast h = x := by
  subst h
  rw [BitVec.cast_eq, BitVec.extractLsb'_eq_self]

/-- A one-bit port as a field of length 1, which joins the fields beside it. -/
theorem ofBool_getLsbD {w : Nat} (x : BitVec w) (i : Nat) : BitVec.ofBool (x.getLsbD i) = x.extractLsb' i 1 := by
  ext j hj
  obtain rfl : j = 0 := Nat.lt_one_iff.mp hj
  simp

theorem ofBool_beq_one (b : Bool) : (BitVec.ofBool b == 1#1) = b := by
  cases b <;> rfl

/-- Every port is read where the concatenation puts it: above the ports to its right, which are dropped from the start
position one by one, until it ends where the ports to its left begin. -/
theorem Request.ofWord_toWord {F : Format} (r : Request F) : Request.ofWord r.toWord = r := by
  have hW := F.eight_le_W
  simp (disch := omega) only [Request.ofWord, Request.toWord, BitVec.extractLsb'_cast,
    BitVec.getLsbD_eq_extractLsb', BitVec.extractLsb'_append_eq_of_add_le, BitVec.extractLsb'_append_eq_of_le,
    extractLsb'_self_of_eq_zero, ofBool_beq_one]

/-- The fields of the table are adjacent, so joining them from the left gives the field of all the bits. -/
theorem Request.toWord_ofWord {F : Format} (w : BitVec F.wordBits) : (Request.ofWord w).toWord = w := by
  have hW := F.eight_le_W
  simp (disch := omega) only [Request.ofWord, Request.toWord, ofBool_getLsbD,
    BitVec.extractLsb'_append_extractLsb'_eq_extractLsb', cast_extractLsb'_zero]

/-- Settles O4: the two directions are the two lemmas above. -/
theorem requestWordAndPortsAreInverse : Obligations.RequestWordAndPortsAreInverse :=
  fun _ => ⟨Request.ofWord_toWord, Request.toWord_ofWord⟩

/-! ### The canonical word of an instruction (R53, R54) -/

@[simp] theorem ofWord_encode (F : Format) (i : Instr) : Request.ofWord (encode F i) = i.request F :=
  Request.ofWord_toWord _

open Laws.RequestRoundTrip in
/-- The family `RequestRoundTrip` gathered: it holds of every instruction. -/
theorem requestRoundTrip (i : Instr) : Statement i := by
  cases i with
  | pass a => exact pass a
  | neg a => exact neg a
  | rlen a => exact rlen a
  | dec a => exact dec a
  | pack k e ff => exact pack k e ff
  | round p bnp1 more sticky => exact round p bnp1 more sticky
  | enc sign k e ff sticky => exact enc sign k e ff sticky
  | reserved7 => exact reserved7
  | mul a b => exact mul a b
  | div a b => exact div a b
  | eq a b => exact eq a b
  | le a b => exact le a b
  | lt a b => exact lt a b
  | gt a b => exact gt a b
  | reservedE => exact reservedE
  | reservedF => exact reservedF

theorem decode_request {F : Format} {i : Instr} (h : i.wellFormed F = true) : decode (i.request F) = i :=
  (requestRoundTrip i F h).1

theorem decodeWord_encode {F : Format} {i : Instr} (h : i.wellFormed F = true) : decodeWord F (encode F i) = i := by
  rw [decodeWord, ofWord_encode, decode_request h]

/-- A word's bits as a number are a string of the right length, which decodes as the word does. -/
theorem decodeBits_toNat (F : Format) (w : BitVec F.wordBits) :
    decodeBits F F.wordBits w.toNat = .ok (decodeWord F w) := by
  rw [decodeBits, if_pos ⟨rfl, w.isLt⟩, BitVec.ofNat_toNat, BitVec.setWidth_eq]

/-- Settles O5: the ports of the canonical word are the canonical request, and every well-formed operand is read back from
its port (`requestRoundTrip`). -/
theorem decodeInvertsEncode : Obligations.DecodeInvertsEncode := by
  intro F i hwf
  refine ⟨decodeWord_encode hwf, ?_⟩
  rw [decodeBits_toNat, decodeWord_encode hwf]

/-- The canonical request drives no port outside the format of its instruction. -/
theorem request_zero_outside_format (F : Format) (i : Instr) :
    (i.format ≠ .r1 → i.format ≠ .r2 → (i.request F).a = 0) ∧
    (i.format ≠ .r2 → (i.request F).b = 0) ∧
    (i.format ≠ .fe → (i.request F).fs = false) ∧
    (i.format ≠ .fp → i.format ≠ .fe → (i.request F).fk = 0 ∧ (i.request F).fe = 0 ∧ (i.request F).ff = 0) ∧
    (i.format ≠ .fr → (i.request F).fp = 0 ∧ (i.request F).rBnp1 = false ∧ (i.request F).rMore = false) ∧
    (i.format ≠ .fr → i.format ≠ .fe → (i.request F).rSticky = false) := by
  cases i <;> simp [Instr.request, Instr.format, Request.zero]

/-! ### What the decoder reads (R51, R52, R58) -/

theorem decode_opcode {F : Format} (r : Request F) : (decode r).opcode = r.op := by
  obtain ⟨⟨⟨code, hcode⟩⟩, -⟩ := r
  interval_cases code <;> rfl

theorem fitsRegime_toInt {F : Format} (k : RegimePort F) : fitsRegime F k.toInt :=
  ⟨BitVec.le_toInt k, BitVec.toInt_lt⟩

/-- The decoder's operands are whole ports, so they fit. -/
theorem decode_wellFormed {F : Format} (r : Request F) : (decode r).wellFormed F = true := by
  have hk := decide_eq_true (fitsRegime_toInt r.fk)
  fun_cases decode r <;> simp only [Instr.wellFormed, hk, BitVec.isLt, decide_true, Bool.and_true]

/-- Two requests are the same instruction exactly when they agree on `op` and on the ports of its format: with the same
`op` the decoder takes the same arm, whose operands are those ports, and with another `op` the operation is another. -/
theorem decode_eq_iff_agreeOn {F : Format} (r t : Request F) :
    decode t = decode r ↔ Request.AgreeOn (decode r).format r t := by
  by_cases hop : t.op = r.op
  · fun_cases decode r <;>
      simp [decode, *, Request.AgreeOn, Instr.format, BitVec.toNat_inj, BitVec.toInt_inj, eq_comm]
  · have hcode : decode t = decode r → t.op = r.op := fun h => by rw [← decode_opcode t, h, decode_opcode]
    exact iff_of_false (fun h => hop (hcode h)) (fun h => hop h.1.symm)

/-- Settles O6: the canonical request of a decoded instruction decodes to that instruction again, so it agrees with the
word's own request (`decode_eq_iff_agreeOn`). -/
theorem everyWordDecodesToAWellFormedInstruction : Obligations.EveryWordDecodesToAWellFormedInstruction := by
  intro F w
  have hwf : (decodeWord F w).wellFormed F = true := decode_wellFormed _
  rw [ofWord_encode]
  exact ⟨hwf, (decode_eq_iff_agreeOn _ _).mp (decode_request hwf), request_zero_outside_format F _⟩

/-- Settles O2: each code selects its arm of the decoder. -/
theorem operationMapSelectsByOp : Obligations.OperationMapSelectsByOp := by
  intro F r
  refine ⟨decode_opcode r, ?_, ?_, ?_, ?_, ?_, ?_, ?_, ?_, ?_, ?_, ?_, ?_, ?_, ?_, ?_, ?_⟩ <;>
    (intro hop; simp [decode, hop, Instr.format])

/-- Settles O3: the format is (8, 2), and the decoder runs on each word. -/
theorem writtenOutWordsDecode : Obligations.WrittenOutWordsDecode := by
  intro F hF
  obtain rfl : (⟨.w8, 2, by decide⟩ : Format) = F := Option.some.inj hF
  decide

end Sys2Proof

/-! ### The step on a decoded request (R51, R55) -/

namespace Sys2Proof.Machine

/-- Settles O7: the two requests are the same instruction (`decode_eq_iff_agreeOn`), and a step on a request looks at
nothing else of it. -/
theorem portsOutsideTheFormatAreIgnored : Obligations.PortsOutsideTheFormatAreIgnored := by
  intro F r t hagree
  have hdecode := (decode_eq_iff_agreeOn r t).mpr hagree
  refine ⟨hdecode, fun rest u n => ?_⟩
  rw [step_of_request ⟨rfl, rfl⟩, step_of_request ⟨rfl, rfl⟩, hdecode]

/-- Settles O8: a request is executed and every meaning answers (`exec_presents`); with no request the cycle is idle. -/
theorem stepRunsTheDecodedRequest : Obligations.StepRunsTheDecodedRequest := by
  intro F x rest u n hrst
  constructor
  · intro hreq
    obtain ⟨v, hvalid, hexec⟩ := exec_presents (decode x.req) F
    exact ⟨step_of_request ⟨hrst, hreq⟩, v, hexec rest u n, hvalid⟩
  · intro hidle
    exact ⟨idleResponse F n, n + 1, step_of_idle hrst hidle, idleResponse_rspValid F n⟩

end Sys2Proof.Machine
end

section
/-! The field codec family (40_field_codec.md), first part: what PASS, NEG, RLEN, DEC and PACK answer, the laws of
negation and the corners of the decomposition. -/

namespace Sys2Proof.Machine

/-! ### The answers on whole ports: an operand that is a port's value is that port (R54) -/

theorem exec_pass_port (s : State) (a : Pattern s.fmt) :
    exec (.pass a.toNat) s = s.answer { Response.start s.fmt with z := a } := by
  show execPass a.toNat s = _
  rw [execPass, patternOperand_toNat]

theorem exec_neg_port (s : State) (a : Pattern s.fmt) :
    exec (.neg a.toNat) s = s.answer { Response.start s.fmt with z := negW a } := by
  show execNeg a.toNat s = _
  rw [execNeg, patternOperand_toNat]

theorem exec_rlen_port (s : State) (a : Pattern s.fmt) :
    exec (.rlen a.toNat) s = s.answer { Response.start s.fmt with
      dRs := (run a).rs, dM := BitVec.ofNat _ (run a).m, dTerm := (run a).term, dK := BitVec.ofInt _ (run a).k } := by
  show execRlen a.toNat s = _
  rw [execRlen, patternOperand_toNat]

theorem exec_dec_port (s : State) (a : Pattern s.fmt) :
    exec (.dec a.toNat) s = s.answer (decResponse s.fmt (decompose s.fmt.ES a)) := by
  show execDec a.toNat s = _
  rw [execDec, patternOperand_toNat]

theorem exec_pack_port (s : State) (k : RegimePort s.fmt) (e : ExponentPort s.fmt) (ff : FractionPort s.fmt) :
    exec (.pack k.toInt e.toNat ff.toNat) s = s.answer { Response.start s.fmt with
      p := (packFields s.fmt.W s.fmt.ES k.toInt e.toNat ff.toNat).p,
      z := (packFields s.fmt.W s.fmt.ES k.toInt e.toNat ff.toNat).p.setWidth s.fmt.W,
      bnp1 := (packFields s.fmt.W s.fmt.ES k.toInt e.toNat ff.toNat).bnp1,
      more := (packFields s.fmt.W s.fmt.ES k.toInt e.toNat ff.toNat).more,
      sat := (packFields s.fmt.W s.fmt.ES k.toInt e.toNat ff.toNat).sat } := by
  show execPack k.toInt e.toNat ff.toNat s = _
  rw [execPack, regimeOperand_toInt, exponentOperand_toNat, fractionOperand_toNat]

/-! ### PASS and NEG (R70, R72, R73) -/

/-- Settles O18: the answer is `exec_pass_port`. -/
theorem passReturnsItsOperand : Obligations.PassReturnsItsOperand :=
  exec_pass_port

/-- Settles O19: the number is `negW_toNat`, which for a positive operand is 2^W − a (`negW_toNat_of_pos`). -/
theorem negReturnsTheTwosComplement : Obligations.NegReturnsTheTwosComplement := by
  intro s a
  have hW := s.fmt.eight_le_W
  have hdouble := two_pow_pred_double (w := s.fmt.W) (by omega)
  have hpow : 2 ≤ 2 ^ (s.fmt.W - 1) := Nat.le_pow (by omega)
  have hpos := negW_toNat_of_pos (x := a)
  refine ⟨negW a, exec_neg_port s a, negW_toNat a, fun h => ?_, fun h => ?_, fun h => ?_, fun h => ?_⟩
  · rw [negW_toNat, h, Nat.sub_zero, Nat.mod_self]
  all_goals
    have hneg := hpos (by omega)
    omega

/-- Settles O20: the laws of `negW` stand above, and ZERO and NAR, which are their own negations, have the values 0 and
NaR. -/
theorem negationLaws : Obligations.NegationLaws := by
  intro F x
  have hW : 1 ≤ F.W := by have := F.eight_le_W; omega
  refine ⟨negW_negW x, negW_sign hW, ?_⟩
  by_cases hn : x = nar F.W
  · rw [hn, negW_nar hW, val_nar, Option.map_none]
  by_cases hz : x = zeroPat F.W
  · rw [hz, negW_zeroPat, val_zero _ (zeroPat_ne_nar F), Option.map_some, neg_zero]
  · rw [val_negW hW F.ES hz hn (val_finite hn hz rfl), val_finite hn hz rfl, Option.map_some]

/-! ### RLEN and DEC (R74 to R78) -/

/-- The length of a run is read back from its port. -/
theorem run_m_port {F : Format} (x : Pattern F) : (BitVec.ofNat F.LW (run x).m).toNat = (run x).m := by
  have hW := F.eight_le_W
  have hm := run_m_bounds x (by omega)
  exact F.lengthPort_toNat (by omega)

/-- The regime value of a run is read back from its port. -/
theorem run_k_port {F : Format} (x : Pattern F) : (BitVec.ofInt F.KW (run x).k).toInt = (run x).k := by
  have hW := F.eight_le_W
  have hk := run_k_bounds x (by omega)
  exact F.regimePort_toInt (by omega) (by omega)

/-- Settles O21: the ports hold the run (`run_m_port`, `run_k_port`), whose bits are those of `countRun_run` and
`countRun_stop`. -/
theorem rlenReportsTheRegimeRun : Obligations.RlenReportsTheRegimeRun := by
  intro s a
  obtain ⟨hpos, hle⟩ := run_m_bounds a (by have := s.fmt.eight_le_W; omega)
  refine ⟨(run a).rs, (run a).term, BitVec.ofNat _ (run a).m, BitVec.ofInt _ (run a).k, exec_rlen_port s a, rfl, ?_⟩
  rw [run_m_port, run_k_port]
  exact ⟨hpos, hle, countRun_run a _ _, decide_eq_true_iff,
    fun hterm => countRun_stop a _ _ (of_decide_eq_true hterm), rfl⟩

/-- The fraction, left-aligned, fits the FW bits of its port. -/
theorem decompose_f_aligned_lt {w : Nat} (es : Nat) (x : BitVec w) (h : 3 ≤ w) :
    (decompose es x).f * 2 ^ (w - 3 - (decompose es x).fl) < 2 ^ (w - 3) := by
  have hsig := (sig_decompose_bounds es x h).2
  rw [Dec.sig, Nat.shiftLeft_eq, Nat.pow_succ] at hsig
  omega

/-- Settles O22: each field is in the range its port can hold. -/
theorem decPresentsTheDecomposition : Obligations.DecPresentsTheDecomposition := by
  intro s a
  have hW := s.fmt.eight_le_W
  have hes := s.fmt.es_add_three_le
  obtain ⟨hm, -, -, hk⟩ := decompose_run s.fmt.ES a
  obtain ⟨hel, hfl⟩ := decompose_el_fl_le a
  have hf := decompose_f_aligned_lt s.fmt.ES a (by omega)
  refine ⟨_, exec_dec_port s a, rfl, rfl, ?_, rfl, ?_, ?_, ?_, ?_, ?_, rfl, rfl, rfl⟩
  · show (BitVec.ofNat s.fmt.LW (decompose s.fmt.ES a).m).toNat = _
    rw [hm, run_m_port]
  · show (BitVec.ofInt s.fmt.KW (decompose s.fmt.ES a).k).toInt = _
    rw [hk, run_k_port]
  · exact Laws.RequestRoundTrip.ofNat_toNat_of_lt (decompose_e_lt s.fmt.ES a)
  · exact s.fmt.lengthPort_toNat (by omega)
  · show (BitVec.ofNat s.fmt.FW (_ <<< _)).toNat = _
    rw [Nat.shiftLeft_eq, Laws.RequestRoundTrip.ofNat_toNat_of_lt hf]
  · exact s.fmt.lengthPort_toNat (by omega)

/-- A magnitude that is all regime leaves no bit for the exponent and the fraction. -/
theorem decompose_of_full_regime {w : Nat} (es : Nat) {x : BitVec w} {s : Bool} {r : Run}
    (hs : x.getLsbD (w - 1) = s) (hr : run (if s then negW x else x) = r) (hfull : r.m + r.term.toNat = w - 1) :
    decompose es x = ⟨s, r.rs, r.m, r.term, r.k, 0, 0, 0, 0, decide (x = zeroPat w), decide (x = nar w)⟩ := by
  have hrem : w - 1 - r.m - r.term.toNat = 0 := by omega
  simp [decompose, hs, hr, hrem, Nat.mod_one]

/-- A pattern without a 1 below its sign bit is one run of zeros. -/
theorem run_of_body_zero {w : Nat} (hw : 2 ≤ w) {x : BitVec w} (hx : ∀ i, i < w - 1 → x.getLsbD i = false) :
    run x = ⟨false, w - 1, false, -((w : Int) - 1)⟩ := by
  rw [run_eq (rs := false) (m := w - 1) (k := -((w : Int) - 1)) (by omega) le_rfl (fun j hj => hx _ (by omega))
      (fun h => absurd h (lt_irrefl _)) (by rw [if_neg Bool.false_ne_true]; omega),
    decide_eq_false (lt_irrefl _)]

theorem run_zeroPat {w : Nat} (hw : 2 ≤ w) : run (zeroPat w) = ⟨false, w - 1, false, -((w : Int) - 1)⟩ :=
  run_of_body_zero hw fun i _ => by rw [← BitVec.testBit_toNat, zeroPat_toNat, Nat.zero_testBit]

theorem run_nar {w : Nat} (hw : 2 ≤ w) : run (nar w) = ⟨false, w - 1, false, -((w : Int) - 1)⟩ :=
  run_of_body_zero hw fun i hi => by
    rw [← BitVec.testBit_toNat, nar_toNat (by omega), Nat.testBit_two_pow]
    exact decide_eq_false (by omega)

theorem decompose_zeroPat (F : Format) : decompose F.ES (zeroPat F.W) =
    ⟨false, false, F.W - 1, false, -((F.W : Int) - 1), 0, 0, 0, 0, true, false⟩ := by
  have hW := F.eight_le_W
  have hsign : (zeroPat F.W).getLsbD (F.W - 1) = false := by
    rw [sign_eq_decide, zeroPat_toNat]
    exact decide_eq_false (by have := Nat.two_pow_pos (F.W - 1); omega)
  rw [decompose_of_full_regime F.ES hsign (run_zeroPat (by omega)) rfl, decide_eq_true rfl,
    decide_eq_false (zeroPat_ne_nar F)]

theorem decompose_nar (F : Format) : decompose F.ES (nar F.W) =
    ⟨true, false, F.W - 1, false, -((F.W : Int) - 1), 0, 0, 0, 0, false, true⟩ := by
  have hW := F.eight_le_W
  have hsign : (nar F.W).getLsbD (F.W - 1) = true := by
    rw [sign_eq_decide, nar_toNat (by omega)]
    exact decide_eq_true le_rfl
  have hrun : run (negW (nar F.W)) = ⟨false, F.W - 1, false, -((F.W : Int) - 1)⟩ := by
    rw [negW_nar (by omega), run_nar (by omega)]
  rw [decompose_of_full_regime F.ES hsign hrun rfl, decide_eq_true rfl, decide_eq_false (zeroPat_ne_nar F).symm]

/-- The decomposition of a positive pattern that is all regime. -/
theorem decompose_of_positive_full_regime {w : Nat} (hw : 1 ≤ w) (es : Nat) {x : BitVec w} {r : Run}
    (hpos : 0 < x.toNat) (hlt : x.toNat < 2 ^ (w - 1)) (hr : run x = r) (hfull : r.m + r.term.toNat = w - 1) :
    decompose es x = ⟨false, r.rs, r.m, r.term, r.k, 0, 0, 0, 0, false, false⟩ := by
  obtain ⟨hz, hn, hs⟩ := positive_pattern hw hpos hlt
  rw [decompose_of_full_regime es hs hr hfull, decide_eq_false hz, decide_eq_false hn]

theorem decompose_maxpos {w : Nat} (hw : 2 ≤ w) (es : Nat) :
    decompose es (maxpos w) = ⟨false, true, w - 1, false, (w : Int) - 2, 0, 0, 0, 0, false, false⟩ := by
  have hpow : 2 ≤ 2 ^ (w - 1) := Nat.le_pow (by omega)
  have hnat := maxpos_toNat (w := w) (by omega)
  exact decompose_of_positive_full_regime (by omega) es (by omega) (by omega) (run_maxpos hw) rfl

theorem decompose_minpos {w : Nat} (hw : 3 ≤ w) (es : Nat) :
    decompose es (minpos w) = ⟨false, false, w - 2, true, -((w : Int) - 2), 0, 0, 0, 0, false, false⟩ := by
  have hpow : 2 ≤ 2 ^ (w - 1) := Nat.le_pow (by omega)
  have hnat := minpos_toNat (w := w) (by omega)
  exact decompose_of_positive_full_regime (by omega) es (by omega) (by omega) (run_minpos hw)
    (show w - 2 + 1 = w - 1 by omega)

/-- A truncated exponent takes all the bits the regime leaves (40_field_codec.md R78). -/
theorem decompose_fl_of_truncated {w es : Nat} {x : BitVec w} (h : (decompose es x).el < es) :
    (decompose es x).fl = 0 := by
  obtain ⟨hel, hsum⟩ := decompose_lengths es x
  omega

/-- Settles O24: ZERO, NAR, MAXPOS and MINPOS are all regime (`decompose_of_full_regime`), and negation changes the sign
field only (`decompose_negW`). -/
theorem decomposeAtItsCorners : Obligations.DecomposeAtItsCorners := by
  intro F
  have hW := F.eight_le_W
  exact ⟨decompose_zeroPat F, decompose_nar F, decompose_maxpos (by omega) F.ES, decompose_minpos (by omega) F.ES,
    fun _ => ⟨decompose_fl_of_truncated, decompose_negW (by omega) F.ES⟩⟩

/-! ### PACK (R80, R82) -/

/-- Settles O25: the operands are the whole ports, and extending the body by one bit keeps its number and leaves the
sign bit 0. -/
theorem packPresentsThePackedFields : Obligations.PackPresentsThePackedFields := by
  intro s k e ff
  refine ⟨_, exec_pack_port s k e ff, ?_, ?_⟩
  · exact BitVec.toNat_setWidth_of_le (Nat.sub_le _ _)
  · rw [BitVec.getLsbD_setWidth, BitVec.getLsbD_of_ge _ _ le_rfl, Bool.and_false]

end Sys2Proof.Machine
end

section
/-! The field codec family (40_field_codec.md), second part: the laws of `pack_fields`. -/

namespace Sys2Proof.Machine

/-! ### The bits of a number put above `m` others -/

theorem append_div_low (a b : Nat) {m n : Nat} (h : n ≤ m) :
    (2 ^ m * a + b) / 2 ^ n = a * 2 ^ (m - n) + b / 2 ^ n := by
  rw [← Nat.add_sub_of_le h, Nat.pow_add, Nat.mul_assoc, Nat.mul_add_div (Nat.two_pow_pos n), Nat.add_sub_cancel_left,
    Nat.mul_comm a]

theorem append_mod_low (a b : Nat) {m n : Nat} (h : n ≤ m) : (2 ^ m * a + b) % 2 ^ n = b % 2 ^ n := by
  rw [← Nat.add_sub_of_le h, Nat.pow_add, Nat.mul_assoc, Nat.mul_add_mod]

theorem append_testBit_low (a : Nat) {b m i : Nat} (hb : b < 2 ^ m) (h : i < m) :
    (2 ^ m * a + b).testBit i = b.testBit i := by
  rw [Nat.testBit_two_pow_mul_add a hb, if_pos h]

theorem append_div_high (a t : Nat) {b m : Nat} (hb : b < 2 ^ m) : (2 ^ m * a + b) / 2 ^ (m + t) = a / 2 ^ t := by
  rw [Nat.pow_add, ← Nat.div_div_eq_div_mul, Nat.mul_add_div (Nat.two_pow_pos m), Nat.div_eq_of_lt hb, Nat.add_zero]

theorem append_mod_high (a t : Nat) {b m : Nat} (hb : b < 2 ^ m) :
    (2 ^ m * a + b) % 2 ^ (m + t) = b + 2 ^ m * (a % 2 ^ t) := by
  rw [Nat.pow_add, Nat.mod_mul, Nat.mul_add_mod, Nat.mod_eq_of_lt hb, Nat.mul_add_div (Nat.two_pow_pos m),
    Nat.div_eq_of_lt hb, Nat.add_zero]

theorem append_testBit_high (a i : Nat) {b m : Nat} (hb : b < 2 ^ m) :
    (2 ^ m * a + b).testBit (m + i) = a.testBit i := by
  rw [Nat.testBit_two_pow_mul_add a hb, if_neg (by omega), Nat.add_sub_cancel_left]

/-! ### The packed string (R80) -/

theorem regA_of_nonneg {k : Int} (h : 0 ≤ k) : regA k = k.toNat + 1 := by
  rw [regA, if_pos h]
  omega

theorem regA_of_neg {k : Int} (h : ¬0 ≤ k) : regA k = (-k).toNat := by
  rw [regA, if_neg h]

/-- The regime run with its terminator, as a number of regA + 1 bits. -/
def regimeField (k : Int) : Nat := if 0 ≤ k then 2 ^ (regA k + 1) - 2 else 1

/-- The unrounded string is the fields one above the other. -/
theorem unrounded_eq (w es : Nat) (k : Int) (e ff : Nat) :
    unrounded w es k e ff = 2 ^ (2 * w) * (2 ^ es * regimeField k + e) + ff := by
  simp only [unrounded, Nat.shiftLeft_eq, Nat.mul_comm, regimeField]

/-- The body of a saturated magnitude (R81). -/
theorem packFields_p_of_saturated {w es : Nat} (hw : 2 ≤ w) {k : Int} (e ff : Nat) (h : w - 2 < regA k) :
    (packFields w es k e ff).p.toNat = if 0 ≤ k then 2 ^ (w - 1) - 1 else 1 := by
  have hpow : 2 ≤ 2 ^ (w - 1) := Nat.le_pow (by omega)
  rw [packFields_of_saturated h]
  by_cases hk : 0 ≤ k
  · rw [if_pos hk, if_pos hk, BitVec.toNat_setWidth, maxpos_toNat (by omega), Nat.mod_eq_of_lt (by omega)]
  · rw [if_neg hk, if_neg hk, BitVec.toNat_setWidth, minpos_toNat (by omega), Nat.mod_eq_of_lt (by omega)]

/-! ### The borrowing rule (R83) -/

section
variable {w es : Nat} {k : Int} {e ff : Nat}

/-- The exponent fits, and `fracLength` bits of the fraction. -/
theorem packFields_of_fraction_cut (hw : 3 ≤ w) (he : e < 2 ^ es) (hff : ff < 2 ^ (2 * w)) {fracLength : Nat}
    (h : regA k + es + fracLength = w - 2) :
    (packFields w es k e ff).p.toNat =
        (regimeField k * 2 ^ es + e) * 2 ^ fracLength + ff / 2 ^ (2 * w - fracLength) ∧
      (packFields w es k e ff).bnp1 = ff.testBit (2 * w - 1 - fracLength) ∧
      (packFields w es k e ff).more = decide (ff % 2 ^ (2 * w - 1 - fracLength) ≠ 0) ∧
      (packFields w es k e ff).sat = false := by
  have hfits : regA k ≤ w - 2 := by omega
  have hn : discarded w es k = 2 * w - fracLength := by rw [discarded]; omega
  have hn1 : discarded w es k - 1 = 2 * w - 1 - fracLength := by omega
  rw [packFields_p_toNat hw hfits he hff, packFields_of_fits hfits, unrounded_eq, hn1, hn]
  refine ⟨?_, append_testBit_low _ hff (by omega), ?_, rfl⟩
  · rw [append_div_low _ _ (by omega), Nat.sub_sub_self (by omega), Nat.mul_comm (2 ^ es)]
  · rw [append_mod_low _ _ (by omega)]

/-- The last `t` bits of the exponent are cut, and all of the fraction. -/
theorem packFields_of_exponent_cut (hw : 3 ≤ w) (he : e < 2 ^ es) (hff : ff < 2 ^ (2 * w)) {t : Nat} (ht : 1 ≤ t)
    (htes : t ≤ es) (h : regA k + es = w - 2 + t) :
    (packFields w es k e ff).p.toNat = regimeField k * 2 ^ (es - t) + e / 2 ^ t ∧
      (packFields w es k e ff).bnp1 = e.testBit (t - 1) ∧
      (packFields w es k e ff).more = (decide (e % 2 ^ (t - 1) ≠ 0) || decide (ff ≠ 0)) ∧
      (packFields w es k e ff).sat = false := by
  have hfits : regA k ≤ w - 2 := by omega
  have hn : discarded w es k = 2 * w + t := by rw [discarded]; omega
  have hn1 : discarded w es k - 1 = 2 * w + (t - 1) := by omega
  rw [packFields_p_toNat hw hfits he hff, packFields_of_fits hfits, unrounded_eq, hn1, hn]
  refine ⟨?_, ?_, ?_, rfl⟩
  · rw [append_div_high _ _ hff, append_div_low _ _ htes]
  · rw [append_testBit_high _ _ hff, append_testBit_low _ he (by omega)]
  · rw [append_mod_high _ _ hff, append_mod_low _ _ (by omega), ← Bool.decide_or, decide_eq_decide, ne_eq,
      Nat.add_eq_zero_iff, Nat.mul_eq_zero]
    have := Nat.two_pow_pos (2 * w)
    omega

end

/-- Settles O26: the three rows are `packFields_of_fraction_cut`, `packFields_of_exponent_cut` and saturation. -/
theorem packBorrowsAsTabulated : Obligations.PackBorrowsAsTabulated := by
  intro F k e ff he hff
  have hW : 3 ≤ F.W := by have := F.eight_le_W; omega
  refine ⟨fun _ h => packFields_of_fraction_cut hW he hff h,
    fun _ ht htes h => packFields_of_exponent_cut hW he hff ht htes h, fun h => ?_⟩
  refine ⟨packFields_p_of_saturated (by omega) e ff h, ?_⟩
  rw [packFields_of_saturated h]
  exact ⟨rfl, rfl, rfl⟩

/-! ### The range of the body for each regime value (R84 items 2 and 3) -/

/-- The least body whose regime value is k, MAXPOS and MINPOS standing for the regimes that do not fit. -/
def regimeFloor (w : Nat) (k : Int) : Nat :=
  if 0 ≤ k then 2 ^ (w - 1) - 2 ^ (w - 2 - k.toNat) else 2 ^ (w - 2 - (-k).toNat)

theorem regimeFloor_mono {w : Nat} (hw : 2 ≤ w) {k k' : Int} (h : k ≤ k') : regimeFloor w k ≤ regimeFloor w k' := by
  have hdouble : 2 ^ (w - 1) = 2 * 2 ^ (w - 2) := two_pow_pred_double (w := w - 1) (by omega)
  have hpow {i j : Nat} : i ≤ j → 2 ^ i ≤ 2 ^ j := Nat.pow_le_pow_right (by omega)
  rw [regimeFloor, regimeFloor]
  by_cases hk : 0 ≤ k
  · rw [if_pos hk, if_pos (hk.trans h)]
    exact Nat.sub_le_sub_left (hpow (by omega)) _
  · rw [if_neg hk]
    split
    · have h1 := hpow (Nat.sub_le (w - 2) (-k).toNat)
      have h2 := hpow (Nat.sub_le (w - 2) k'.toNat)
      omega
    · exact hpow (by omega)

theorem regimeFloor_bounds {w : Nat} (hw : 3 ≤ w) (k : Int) :
    1 ≤ regimeFloor w k ∧ regimeFloor w k + 1 ≤ 2 ^ (w - 1) := by
  have hdouble : 2 ^ (w - 1) = 2 * 2 ^ (w - 2) := two_pow_pred_double (w := w - 1) (by omega)
  have hpow {i : Nat} : 2 ^ (w - 2 - i) ≤ 2 ^ (w - 2) := Nat.pow_le_pow_right (by omega) (Nat.sub_le _ _)
  have htwo : 2 ≤ 2 ^ (w - 2) := Nat.le_pow (by omega)
  rw [regimeFloor]
  split
  · have := Nat.two_pow_pos (w - 2 - k.toNat)
    have := hpow (i := k.toNat)
    omega
  · have := Nat.two_pow_pos (w - 2 - (-k).toNat)
    have := hpow (i := (-k).toNat)
    omega

/-- The bodies that start with a given regime run from its floor to the floor of the next regime value. -/
theorem regimeField_mul_two_pow {w : Nat} {k : Int} (h : regA k ≤ w - 2) :
    regimeField k * 2 ^ (w - 2 - regA k) = regimeFloor w k ∧
      (regimeField k + 1) * 2 ^ (w - 2 - regA k) = regimeFloor w (k + 1) := by
  have hpos := regA_pos k
  rw [regimeField, regimeFloor, regimeFloor]
  by_cases hk : 0 ≤ k
  · have hreg := regA_of_nonneg hk
    have hlen : 2 ^ (regA k + 1) * 2 ^ (w - 2 - regA k) = 2 ^ (w - 1) := by
      rw [← Nat.pow_add]; congr 1; omega
    have hfour : 2 ^ 2 ≤ 2 ^ (regA k + 1) := Nat.pow_le_pow_right (by omega) (by omega)
    rw [if_pos hk, if_pos hk, if_pos (by omega), show 2 ^ (regA k + 1) - 2 + 1 = 2 ^ (regA k + 1) - 1 by omega,
      Nat.sub_mul, Nat.sub_mul, hlen, ← Nat.pow_succ', Nat.one_mul]
    constructor <;> congr 2 <;> omega
  · have hreg := regA_of_neg hk
    rw [if_neg hk, if_neg hk, Nat.one_mul, hreg]
    refine ⟨rfl, ?_⟩
    rw [one_add_one_eq_two, ← Nat.pow_succ']
    split
    · have hdouble : 2 ^ (w - 1) = 2 * 2 ^ (w - 2) := two_pow_pred_double (w := w - 1) (by omega)
      rw [show (k + 1).toNat = 0 by omega, show (w - 2 - (-k).toNat).succ = w - 2 by omega, Nat.sub_zero]
      omega
    · congr 1; omega

/-- A packed body starts with the regime it was given. -/
theorem packFields_p_div {w es : Nat} (hw : 3 ≤ w) {k : Int} {e ff : Nat} (h : regA k ≤ w - 2)
    (he : e < 2 ^ es) (hff : ff < 2 ^ (2 * w)) :
    (packFields w es k e ff).p.toNat / 2 ^ (w - 2 - regA k) = regimeField k := by
  have hlen : discarded w es k + (w - 2 - regA k) = 2 * w + es := by
    rw [discarded]
    omega
  rw [packFields_p_toNat hw h he hff, Nat.div_div_eq_div_mul, ← Nat.pow_add, hlen, unrounded_eq,
    append_div_high _ _ hff, append_div_low _ _ le_rfl, Nat.div_eq_of_lt he, Nat.sub_self, Nat.pow_zero, Nat.mul_one,
    Nat.add_zero]

/-- Without saturation the body lies between the floor of its regime value and the floor of the next. -/
theorem packFields_p_of_fits {w es : Nat} (hw : 3 ≤ w) {k : Int} {e ff : Nat} (h : regA k ≤ w - 2)
    (he : e < 2 ^ es) (hff : ff < 2 ^ (2 * w)) :
    regimeFloor w k ≤ (packFields w es k e ff).p.toNat ∧ (packFields w es k e ff).p.toNat < regimeFloor w (k + 1) := by
  obtain ⟨hfloor, hnext⟩ := regimeField_mul_two_pow h
  have hdiv := packFields_p_div hw h he hff
  rw [Nat.div_eq_iff (Nat.two_pow_pos _)] at hdiv
  rw [← hfloor, ← hnext, Nat.add_mul, Nat.one_mul]
  have := Nat.two_pow_pos (w - 2 - regA k)
  omega

/-- A saturated body is the floor of its regime value and of the next. -/
theorem packFields_p_saturated_eq_regimeFloor {w es : Nat} (hw : 3 ≤ w) {k : Int} (e ff : Nat)
    (h : w - 2 < regA k) :
    (packFields w es k e ff).p.toNat = regimeFloor w k ∧ (packFields w es k e ff).p.toNat = regimeFloor w (k + 1) := by
  rw [packFields_p_of_saturated (by omega) e ff h, regimeFloor, regimeFloor]
  by_cases hk : 0 ≤ k
  · have hreg := regA_of_nonneg hk
    rw [if_pos hk, if_pos hk, if_pos (by omega), show w - 2 - k.toNat = 0 by omega,
      show w - 2 - (k + 1).toNat = 0 by omega]
    exact ⟨rfl, rfl⟩
  · have hreg := regA_of_neg hk
    rw [if_neg hk, if_neg hk, if_neg (by omega), show w - 2 - (-k).toNat = 0 by omega,
      show w - 2 - (-(k + 1)).toNat = 0 by omega]
    exact ⟨rfl, rfl⟩

theorem packFields_p_mem_regime {w es : Nat} (hw : 3 ≤ w) (k : Int) {e ff : Nat} (he : e < 2 ^ es)
    (hff : ff < 2 ^ (2 * w)) :
    regimeFloor w k ≤ (packFields w es k e ff).p.toNat ∧ (packFields w es k e ff).p.toNat ≤ regimeFloor w (k + 1) := by
  by_cases h : regA k ≤ w - 2
  · obtain ⟨hlo, hhi⟩ := packFields_p_of_fits hw h he hff
    exact ⟨hlo, hhi.le⟩
  · obtain ⟨hlo, hhi⟩ := packFields_p_saturated_eq_regimeFloor (es := es) hw e ff (not_le.mp h)
    exact ⟨hlo.ge, hhi.le⟩

/-- Settles O27: a body that fits lies below the floor of the next regime value (`packFields_p_of_fits`). -/
theorem packedBodyIsNeverZero : Obligations.PackedBodyIsNeverZero := by
  intro F k e ff he hff
  have hW := F.eight_le_W
  refine ⟨fun hsat => ?_, fun hsat => (packFields_body_of_sat (by omega) hsat).1.symm⟩
  have hfits : regA k ≤ F.W - 2 := by simpa using hsat
  obtain ⟨hlo, hhi⟩ := packFields_p_of_fits (by omega) hfits he hff
  have hmin := (regimeFloor_bounds (w := F.W) (by omega) k).1
  have hmax := (regimeFloor_bounds (w := F.W) (by omega) (k + 1)).2
  omega

/-- For one regime value the body grows with exponent and fraction. -/
theorem packFields_p_mono_tail {w es : Nat} (hw : 3 ≤ w) (k : Int) {e e' ff ff' : Nat} (he : e < 2 ^ es)
    (he' : e' < 2 ^ es) (hff : ff < 2 ^ (2 * w)) (hff' : ff' < 2 ^ (2 * w))
    (h : 2 ^ (2 * w) * e + ff ≤ 2 ^ (2 * w) * e' + ff') :
    (packFields w es k e ff).p.toNat ≤ (packFields w es k e' ff').p.toNat := by
  by_cases hfits : regA k ≤ w - 2
  · rw [packFields_p_toNat hw hfits he hff, packFields_p_toNat hw hfits he' hff', unrounded_eq, unrounded_eq]
    refine Nat.div_le_div_right ?_
    rw [Nat.mul_add, Nat.mul_add]
    omega
  · rw [packFields_p_of_saturated (by omega) e ff (not_le.mp hfits),
      packFields_p_of_saturated (by omega) e' ff' (not_le.mp hfits)]

/-- The significand 1 + ff/2^(2W) lies in [1, 2). -/
theorem significand_bounds {n ff : Nat} (hff : ff < 2 ^ n) :
    (1 : ℚ) ≤ 1 + (ff : ℚ) / 2 ^ n ∧ 1 + (ff : ℚ) / 2 ^ n < 2 := by
  have hlt : (ff : ℚ) / 2 ^ n < 1 := (div_lt_one (by positivity)).mpr (by exact_mod_cast hff)
  have hnonneg : (0 : ℚ) ≤ (ff : ℚ) / 2 ^ n := by positivity
  constructor <;> linarith

/-- The order of the magnitudes is the order of the scales and, for one scale, of the fractions. -/
theorem scale_le_of_fieldsValue_le {w es : Nat} {k k' : Int} {e e' ff ff' : Nat} (hff : ff < 2 ^ (2 * w))
    (hff' : ff' < 2 ^ (2 * w)) (h : fieldsValue w es k e ff ≤ fieldsValue w es k' e' ff') :
    k * 2 ^ es + e < k' * 2 ^ es + e' ∨ k * 2 ^ es + e = k' * 2 ^ es + e' ∧ ff ≤ ff' := by
  rw [fieldsValue, fieldsValue] at h
  generalize k * 2 ^ es + e = s at h ⊢
  generalize k' * 2 ^ es + e' = s' at h ⊢
  obtain ⟨hone, -⟩ := significand_bounds hff
  obtain ⟨-, htwo⟩ := significand_bounds hff'
  rcases lt_trichotomy s s' with hlt | heq | hgt
  · exact .inl hlt
  · subst heq
    have hsig := le_of_mul_le_mul_left h (by positivity)
    rw [add_le_add_iff_left, div_le_div_iff_of_pos_right (by positivity), Nat.cast_le] at hsig
    exact .inr ⟨rfl, hsig⟩
  · have hpow : (2 : ℚ) ^ s' * 2 ≤ 2 ^ s := by
      rw [← zpow_add_one₀ two_ne_zero]
      exact zpow_le_zpow_right₀ one_le_two hgt
    refine absurd h (not_le.mpr ?_)
    calc (2 : ℚ) ^ s' * (1 + (ff' : ℚ) / 2 ^ (2 * w)) < 2 ^ s' * 2 := mul_lt_mul_of_pos_left htwo (by positivity)
      _ ≤ 2 ^ s := hpow
      _ ≤ 2 ^ s * (1 + (ff : ℚ) / 2 ^ (2 * w)) := le_mul_of_one_le_right (by positivity) hone

/-- The regime value is the scale without its exponent. -/
theorem scale_ediv {es : Nat} (k : Int) {e : Nat} (he : e < 2 ^ es) : (k * 2 ^ es + e) / 2 ^ es = k := by
  have hdiv : (e : Int) / 2 ^ es = 0 := Int.ediv_eq_zero_of_lt (by omega) (by exact_mod_cast he)
  rw [add_comm, Int.add_mul_ediv_right _ _ (by positivity), hdiv, zero_add]

/-- Settles O28: a greater regime value gives a body above the floor between the two (`packFields_p_mem_regime`), and
for one regime value exponent and fraction decide (`packFields_p_mono_tail`). -/
theorem packIsMonotone : Obligations.PackIsMonotone := by
  intro F k k' e e' ff ff' he he' hff hff' hvalue
  have hW : 3 ≤ F.W := by have := F.eight_le_W; omega
  have hscale := scale_le_of_fieldsValue_le hff hff' hvalue
  have hk : k ≤ k' := by
    rw [← scale_ediv k he, ← scale_ediv k' he']
    exact Int.ediv_le_ediv (by positivity) (hscale.elim le_of_lt fun h => h.1.le)
  rcases hk.lt_or_eq with hlt | rfl
  · calc (packFields F.W F.ES k e ff).p.toNat ≤ regimeFloor F.W (k + 1) := (packFields_p_mem_regime hW k he hff).2
      _ ≤ regimeFloor F.W k' := regimeFloor_mono (by omega) hlt
      _ ≤ (packFields F.W F.ES k' e' ff').p.toNat := (packFields_p_mem_regime hW k' he' hff').1
  · refine packFields_p_mono_tail hW k he he' hff hff' ?_
    have hlex : e < e' ∨ e = e' ∧ ff ≤ ff' := by omega
    rcases hlex with he | ⟨rfl, hle⟩
    · have := Nat.mul_le_mul_left (2 ^ (2 * F.W)) (Nat.succ_le_of_lt he)
      rw [Nat.mul_succ] at this
      omega
    · exact Nat.add_le_add_left hle _

/-! ### PACK inverts DEC (R84 item 1) -/

/-- The run length of the regime value of a run is the run's own. -/
theorem regA_run {w : Nat} (hw : 2 ≤ w) (x : BitVec w) : regA (run x).k = (run x).m := by
  have hpos := (run_m_bounds x hw).1
  rw [run_k]
  split
  · rw [regA_of_nonneg (by omega)]
    omega
  · rw [regA_of_neg (by omega)]
    omega

/-- A run with a terminator has the bits that PACK writes for its regime value. -/
theorem regimeField_run {w : Nat} (hw : 2 ≤ w) {x : BitVec w} (hx : x.toNat < 2 ^ (w - 1))
    (hterm : (run x).term = true) : regimeField (run x).k = x.toNat / 2 ^ (w - 2 - (run x).m) := by
  have hpos := (run_m_bounds x hw).1
  have hbits := run_leading_bits x hx
  rw [hterm, if_pos rfl, if_pos rfl, Bool.toNat_true, show w - 1 - (run x).m - 1 = w - 2 - (run x).m by omega] at hbits
  rw [hbits, regimeField, regA_run hw, run_k]
  cases (run x).rs with
  | false => exact if_neg (by rw [if_neg Bool.false_ne_true]; omega)
  | true => exact if_pos (by rw [if_pos rfl]; omega)

/-- A positive pattern whose run has no terminator is MAXPOS. -/
theorem eq_maxpos_of_not_term {w : Nat} (hw : 2 ≤ w) {x : BitVec w} (hpos : 0 < x.toNat) (hlt : x.toNat < 2 ^ (w - 1))
    (hterm : (run x).term = false) : x = maxpos w := by
  have hm : (run x).m = w - 1 := by
    have hle := (run_m_bounds x hw).2
    have hge : ¬(run x).m < w - 1 := of_decide_eq_false hterm
    omega
  have hbits := run_leading_bits x hlt
  rw [hterm, hm, Nat.sub_self, Bool.toNat_false, Nat.sub_zero, Nat.pow_zero, Nat.div_one, if_neg Bool.false_ne_true,
    if_neg Bool.false_ne_true] at hbits
  refine BitVec.eq_of_toNat_eq ?_
  rw [maxpos_toNat (by omega)]
  split at hbits <;> omega

/-- PACK on a string whose discarded bits are all 0. -/
theorem packFields_of_exact {w es : Nat} {k : Int} {e ff : Nat} {x : BitVec w} (h : regA k ≤ w - 2)
    (hx : unrounded w es k e ff = x.toNat * 2 ^ discarded w es k) :
    packFields w es k e ff = ⟨x.setWidth (w - 1), false, false, false⟩ := by
  have hn : discarded w es k - 1 < discarded w es k := by rw [discarded]; omega
  rw [packFields_of_fits h, hx, Nat.shiftRight_eq_div_pow, Nat.mul_div_cancel _ (Nat.two_pow_pos _),
    Nat.testBit_mul_two_pow, decide_eq_false (not_le.mpr hn), Bool.false_and,
    Nat.mod_eq_zero_of_dvd ((Nat.pow_dvd_pow 2 hn.le).mul_left _), decide_eq_false (not_not_intro rfl),
    BitVec.ofNat_toNat]

/-- The fraction of DEC, moved to the top of the port of PACK, lies just above the bits that PACK discards: a fraction
bit is present only where the whole exponent is. -/
theorem decompose_f_shifted {w es m : Nat} (hw : 3 ≤ w) {x : BitVec w}
    (hsum : m + 2 + (decompose es x).el + (decompose es x).fl = w) :
    (decompose es x).f * 2 ^ (w - 3 - (decompose es x).fl) * 2 ^ (w + 3) =
      (decompose es x).f * 2 ^ (m + es + w + 2) := by
  have hf := decompose_f_lt es x
  have hfl := decompose_fl_le es x hw
  have hel := (decompose_lengths es x).1
  by_cases htrunc : (decompose es x).el < es
  · rw [decompose_fl_of_truncated htrunc, Nat.pow_zero, Nat.lt_one_iff] at hf
    rw [hf, Nat.zero_mul, Nat.zero_mul, Nat.zero_mul]
  · rw [Nat.mul_assoc, ← Nat.pow_add]
    congr 2
    omega

/-- The fields of a positive pattern with a terminator make up the pattern followed by zeros. -/
theorem unrounded_decompose {w es : Nat} (hw : 3 ≤ w) {x : BitVec w} (hpos : 0 < x.toNat)
    (hlt : x.toNat < 2 ^ (w - 1)) (hterm : (run x).term = true) :
    unrounded w es (decompose es x).k (decompose es x).e
        ((decompose es x).f * 2 ^ (w - 3 - (decompose es x).fl) * 2 ^ (w + 3)) =
      x.toNat * 2 ^ discarded w es (decompose es x).k := by
  obtain ⟨-, -, hs⟩ := positive_pattern (by omega) hpos hlt
  have hregime := regimeField_run (by omega) hlt hterm
  have hle : (run x).m < w - 1 := of_decide_eq_true hterm
  obtain ⟨hm, -, ht, hk⟩ := decompose_run es x
  obtain ⟨hel, hlen⟩ := decompose_lengths es x
  obtain ⟨eb, -, he, htail⟩ := decompose_tail es x
  rw [hs, if_neg Bool.false_ne_true] at hm ht hk htail
  rw [hm, ht, hterm, Bool.toNat_true, show w - 1 - (run x).m - 1 = w - 2 - (run x).m by omega] at hel hlen htail
  have hsum : (run x).m + 2 + (decompose es x).el + (decompose es x).fl = w := by omega
  rw [unrounded_eq, hk, he, hregime, discarded, regA_run (by omega), decompose_f_shifted hw hsum]
  have hdiv := Nat.div_add_mod' x.toNat (2 ^ (w - 2 - (run x).m))
  rw [htail] at hdiv
  generalize x.toNat / 2 ^ (w - 2 - (run x).m) = regime at hdiv ⊢
  generalize (decompose es x).f = f at hdiv ⊢
  have hshift_regime : 2 ^ (2 * w) * 2 ^ es = 2 ^ (w - 2 - (run x).m) * 2 ^ ((run x).m + es + w + 2) := by
    rw [← Nat.pow_add, ← Nat.pow_add]; congr 1; omega
  have hshift_exponent : 2 ^ (2 * w) * 2 ^ (es - (decompose es x).el) =
      2 ^ (decompose es x).fl * 2 ^ ((run x).m + es + w + 2) := by
    rw [← Nat.pow_add, ← Nat.pow_add]; congr 1; omega
  calc 2 ^ (2 * w) * (2 ^ es * regime + eb * 2 ^ (es - (decompose es x).el)) + f * 2 ^ ((run x).m + es + w + 2)
      = regime * (2 ^ (2 * w) * 2 ^ es) + eb * (2 ^ (2 * w) * 2 ^ (es - (decompose es x).el)) +
          f * 2 ^ ((run x).m + es + w + 2) := by ring
    _ = (regime * 2 ^ (w - 2 - (run x).m) + (eb * 2 ^ (decompose es x).fl + f)) * 2 ^ ((run x).m + es + w + 2) := by
        rw [hshift_regime, hshift_exponent]; ring
    _ = x.toNat * 2 ^ ((run x).m + es + w + 2) := by rw [hdiv]

/-- PACK inverts DEC on a positive pattern whose run has a terminator. -/
theorem packFields_decompose_of_term {w es : Nat} (hw : 3 ≤ w) {x : BitVec w} (hpos : 0 < x.toNat)
    (hlt : x.toNat < 2 ^ (w - 1)) (hterm : (run x).term = true) :
    packFields w es (decompose es x).k (decompose es x).e
        ((decompose es x).f * 2 ^ (w - 3 - (decompose es x).fl) * 2 ^ (w + 3)) =
      ⟨x.setWidth (w - 1), false, false, false⟩ := by
  obtain ⟨-, -, hs⟩ := positive_pattern (by omega) hpos hlt
  obtain ⟨-, -, -, hk⟩ := decompose_run es x
  rw [hs, if_neg Bool.false_ne_true] at hk
  have hle : (run x).m < w - 1 := of_decide_eq_true hterm
  refine packFields_of_exact ?_ (unrounded_decompose hw hpos hlt hterm)
  rw [hk, regA_run (by omega)]
  omega

/-- PACK gives MAXPOS back by saturation, whatever the exponent and the fraction are. -/
theorem packFields_decompose_maxpos {w : Nat} (hw : 2 ≤ w) (es e ff : Nat) :
    packFields w es (decompose es (maxpos w)).k e ff = ⟨(maxpos w).setWidth (w - 1), false, false, true⟩ := by
  have hk : 0 ≤ (w : Int) - 2 := by omega
  rw [decompose_maxpos hw, packFields_of_saturated (by rw [regA_of_nonneg hk]; show w - 2 < _; omega), if_pos hk]

/-- Settles O29: with a terminator PACK is exact (`packFields_decompose_of_term`), and without one the pattern is
MAXPOS. -/
theorem packInvertsDecompose : Obligations.PackInvertsDecompose := by
  intro F x hpos hlt
  have hW := F.eight_le_W
  cases hterm : (run x).term with
  | true =>
    have hne : x ≠ maxpos F.W := by
      rintro rfl
      rw [run_maxpos (by omega)] at hterm
      exact absurd hterm Bool.false_ne_true
    rw [decide_eq_false hne]
    exact packFields_decompose_of_term (by omega) hpos hlt hterm
  | false =>
    obtain rfl := eq_maxpos_of_not_term (by omega) hpos hlt hterm
    rw [decide_eq_true rfl]
    exact packFields_decompose_maxpos (by omega) F.ES _ _

end Sys2Proof.Machine
end

section
/-! The rounding engine family (41_rounding_engine.md), first part: what `round_apply` and `encode_round` do, and what ROUND
and ENC answer. -/

namespace Sys2Proof.Machine

/-! ### The rounding step (R100, R101, R104) -/

@[simp] theorem roundApply_inc {w : Nat} (p : BitVec (w - 1)) (bnp1 more s : Bool) :
    (roundApply p bnp1 more s).inc = (bnp1 && (p.getLsbD 0 || (more || s))) := by
  rw [roundApply]
  split <;> rfl

@[simp] theorem roundApply_more {w : Nat} (p : BitVec (w - 1)) (bnp1 more s : Bool) :
    (roundApply p bnp1 more s).more = (more || s) := by
  rw [roundApply]
  split <;> rfl

theorem setWidth_body_toNat {w : Nat} (p : BitVec (w - 1)) : (p.setWidth w).toNat = p.toNat :=
  BitVec.toNat_setWidth_of_le (Nat.sub_le _ _)

/-- A body is MAXPOS when all its bits are 1. -/
theorem setWidth_body_eq_maxpos {w : Nat} (hw : 1 ≤ w) {p : BitVec (w - 1)} :
    p.setWidth w = maxpos w ↔ p.toNat = 2 ^ (w - 1) - 1 := by
  rw [← BitVec.toNat_inj, setWidth_body_toNat, maxpos_toNat hw]

/-- The increment is added to the whole body and held at MAXPOS. -/
theorem roundApply_z_toNat {w : Nat} (hw : 1 ≤ w) (p : BitVec (w - 1)) (bnp1 more s : Bool) :
    (roundApply p bnp1 more s).z.toNat =
      min (p.toNat + (roundApply p bnp1 more s).inc.toNat) (2 ^ (w - 1) - 1) := by
  have hdouble := two_pow_pred_double hw
  have hp := p.isLt
  rw [roundApply]
  split
  case isTrue h =>
    obtain ⟨-, hmax⟩ := h
    have hp := (setWidth_body_eq_maxpos hw).mp hmax
    rw [maxpos_toNat hw, hp, Nat.min_eq_right (Nat.le_add_right _ _)]
  case isFalse h =>
    rw [setWidth_body_eq_maxpos hw] at h
    generalize rneInc (p.getLsbD 0) bnp1 (rsAccumulate more s) = inc at h ⊢
    have hsum : p.toNat + inc.toNat ≤ 2 ^ (w - 1) - 1 := by
      cases inc with
      | false => rw [Bool.toNat_false]; omega
      | true =>
        have hmax : p.toNat ≠ 2 ^ (w - 1) - 1 := fun hp => h ⟨rfl, hp⟩
        rw [Bool.toNat_true]
        omega
    have hinc : (BitVec.ofNat w inc.toNat).toNat = inc.toNat := by rw [BitVec.toNat_ofNat, Nat.mod_eq_of_lt (by omega)]
    have hbody := setWidth_body_toNat p
    rw [Nat.min_eq_left hsum, BitVec.toNat_add_of_lt (by rw [hbody, hinc]; omega), hbody, hinc]

/-- `ovf` reports the suppressed increment and the change of the regime value (R104). -/
theorem roundApply_ovf {w : Nat} (hw : 1 ≤ w) (p : BitVec (w - 1)) (bnp1 more s : Bool) :
    (roundApply p bnp1 more s).ovf = true ↔
      ((roundApply p bnp1 more s).inc = true ∧ p.toNat = 2 ^ (w - 1) - 1) ∨
        (run (roundApply p bnp1 more s).z).k ≠ (run (p.setWidth w)).k := by
  rw [← setWidth_body_eq_maxpos hw, roundApply]
  split
  case isTrue h => exact iff_of_true rfl (.inl h)
  case isFalse h => exact decide_eq_true_iff.trans (or_iff_right h).symm

/-- Without a round bit the body is left alone. -/
theorem roundApply_of_not_bnp1 {w : Nat} (p : BitVec (w - 1)) (more s : Bool) :
    roundApply p false more s = ⟨p.setWidth w, false, false, more || s⟩ := by
  simp [roundApply, rneInc, rsAccumulate]

/-! ### The answers on whole ports (R105, R108) -/

theorem exec_round_port (s : State) (p : Body s.fmt) (bnp1 more sticky : Bool) :
    exec (.round p.toNat bnp1 more sticky) s = s.answer { Response.start s.fmt with
      z := (roundApply p bnp1 more sticky).z, inc := (roundApply p bnp1 more sticky).inc,
      ovf := (roundApply p bnp1 more sticky).ovf, more := (roundApply p bnp1 more sticky).more } := by
  show execRound p.toNat bnp1 more sticky s = _
  rw [execRound, bodyOperand_toNat]

theorem exec_enc_port (s : State) (sign : Bool) (k : RegimePort s.fmt) (e : ExponentPort s.fmt)
    (ff : FractionPort s.fmt) (sticky : Bool) :
    exec (.enc sign k.toInt e.toNat ff.toNat sticky) s = s.answer { Response.start s.fmt with
      z := (encodeRound s.fmt.W s.fmt.ES sign k.toInt e.toNat ff.toNat sticky).z,
      p := (encodeRound s.fmt.W s.fmt.ES sign k.toInt e.toNat ff.toNat sticky).p,
      bnp1 := (encodeRound s.fmt.W s.fmt.ES sign k.toInt e.toNat ff.toNat sticky).bnp1,
      more := (encodeRound s.fmt.W s.fmt.ES sign k.toInt e.toNat ff.toNat sticky).more,
      sat := (encodeRound s.fmt.W s.fmt.ES sign k.toInt e.toNat ff.toNat sticky).sat,
      inc := (encodeRound s.fmt.W s.fmt.ES sign k.toInt e.toNat ff.toNat sticky).inc,
      ovf := (encodeRound s.fmt.W s.fmt.ES sign k.toInt e.toNat ff.toNat sticky).ovf } := by
  show execEnc sign k.toInt e.toNat ff.toNat sticky s = _
  rw [execEnc, regimeOperand_toInt, exponentOperand_toNat, fractionOperand_toNat]

/-- Settles O30: the ports are those of `round_apply`, whose number is `roundApply_z_toNat`. -/
theorem roundAddsTheIncrementToTheBody : Obligations.RoundAddsTheIncrementToTheBody := by
  intro s p bnp1 more sticky inc
  have hW := s.fmt.eight_le_W
  have hinc : (roundApply p bnp1 more sticky).inc = inc := roundApply_inc p bnp1 more sticky
  refine ⟨(roundApply p bnp1 more sticky).z, (roundApply p bnp1 more sticky).ovf, ?_, ?_, ?_⟩
  · rw [exec_round_port, hinc, roundApply_more]
    rfl
  · rw [roundApply_z_toNat (by omega), hinc]
  · rw [roundApply_ovf (by omega), hinc]

/-- Settles O32: `encode_round` is `pack_fields` and `round_apply` with the sign restored, and `neg_W` is negation. -/
theorem encPresentsThePackedAndRoundedFields : Obligations.EncPresentsThePackedAndRoundedFields := by
  intro s sign k e ff sticky c r
  have hmore : r.more = (c.more || sticky) := roundApply_more c.p c.bnp1 c.more sticky
  rw [exec_enc_port, ← negW_eq_neg, ← hmore]
  rfl

/-! ### `ovf` is a carry into the regime (R106) -/

/-- A positive pattern is at least the floor of its regime value. -/
theorem regimeFloor_run_le {w : Nat} (hw : 3 ≤ w) {x : BitVec w} (hpos : 0 < x.toNat) (hlt : x.toNat < 2 ^ (w - 1)) :
    regimeFloor w (run x).k ≤ x.toNat := by
  cases hterm : (run x).term with
  | true =>
    have hm : (run x).m < w - 1 := of_decide_eq_true hterm
    have hreg := regA_run (by omega) x
    rw [← (regimeField_mul_two_pow (w := w) (by omega)).1, hreg, regimeField_run (by omega) hlt hterm]
    exact Nat.div_mul_le_self _ _
  | false =>
    obtain rfl := eq_maxpos_of_not_term (by omega) hpos hlt hterm
    have hmax := (regimeFloor_bounds hw (run (maxpos w)).k).2
    rw [maxpos_toNat (by omega)]
    omega

/-- A pattern with a terminator is below the floor of the next regime value. -/
theorem lt_regimeFloor_run_succ {w : Nat} (hw : 3 ≤ w) {x : BitVec w} (hlt : x.toNat < 2 ^ (w - 1))
    (hterm : (run x).term = true) : x.toNat < regimeFloor w ((run x).k + 1) := by
  have hm : (run x).m < w - 1 := of_decide_eq_true hterm
  have hreg := regA_run (by omega) x
  rw [← (regimeField_mul_two_pow (w := w) (by omega)).2, hreg, regimeField_run (by omega) hlt hterm]
  rw [Nat.mul_comm]
  exact Nat.lt_mul_div_succ _ (Nat.two_pow_pos _)

/-- The regime value of a positive pattern is the greatest whose floor it reaches. -/
theorem le_run_k {w : Nat} (hw : 3 ≤ w) {x : BitVec w} (hpos : 0 < x.toNat) (hlt : x.toNat < 2 ^ (w - 1)) {k : Int}
    (hk : k ≤ (w : Int) - 2) : k ≤ (run x).k ↔ regimeFloor w k ≤ x.toNat := by
  constructor
  · intro h
    exact (regimeFloor_mono (by omega) h).trans (regimeFloor_run_le hw hpos hlt)
  · intro h
    by_contra hnot
    cases hterm : (run x).term with
    | true =>
      have hfloor := regimeFloor_mono (w := w) (by omega) (show (run x).k + 1 ≤ k by omega)
      have := lt_regimeFloor_run_succ hw hlt hterm
      omega
    | false =>
      obtain rfl := eq_maxpos_of_not_term (by omega) hpos hlt hterm
      rw [run_maxpos (by omega)] at hnot
      exact hnot hk

/-- The successor of a pattern has another regime value exactly when the bits below the regime are all 1 (R106). -/
theorem run_k_succ_ne_iff {w : Nat} (hw : 3 ≤ w) {x y : BitVec w} (hy : y.toNat = x.toNat + 1)
    (hlt : y.toNat < 2 ^ (w - 1)) :
    (run y).k ≠ (run x).k ↔
      x.toNat % 2 ^ (w - 1 - (run x).m - (run x).term.toNat) =
        2 ^ (w - 1 - (run x).m - (run x).term.toNat) - 1 := by
  rcases Nat.eq_zero_or_pos x.toNat with hx | hpos
  · obtain rfl : x = zeroPat w := BitVec.eq_of_toNat_eq (hx.trans (zeroPat_toNat w).symm)
    have hmin : (2 - w : Int) ≤ (run y).k := by
      rw [le_run_k hw (by omega) hlt (by omega), regimeFloor, if_neg (by omega),
        show w - 2 - (-(2 - w : Int)).toNat = 0 by omega]
      omega
    rw [run_zeroPat (by omega)]
    refine iff_of_true (by simp only; omega) ?_
    simp [Nat.mod_one]
  · have hterm : (run x).term = true := by
      by_contra hnot
      have hmax := eq_maxpos_of_not_term (by omega) hpos (by omega) (eq_false_of_ne_true hnot)
      rw [hy, hmax, maxpos_toNat (by omega)] at hlt
      omega
    have hm : (run x).m < w - 1 := of_decide_eq_true hterm
    have hreg := regA_run (by omega) x
    obtain ⟨-, hnext⟩ := regimeField_mul_two_pow (w := w) (k := (run x).k) (by omega)
    rw [hreg, regimeField_run (by omega) (by omega) hterm, Nat.add_mul, Nat.one_mul] at hnext
    have hkx := (run_k_bounds x (by omega)).2
    have hle : (run x).k ≤ (run y).k := by
      rw [le_run_k hw (by omega) hlt hkx, hy]
      exact (regimeFloor_run_le hw hpos (by omega)).trans (Nat.le_succ _)
    have hsucc : (run x).k + 1 ≤ (run y).k ↔ regimeFloor w ((run x).k + 1) ≤ y.toNat :=
      le_run_k hw (by omega) hlt (by rw [run_k]; split <;> omega)
    have hdiv := Nat.div_add_mod' x.toNat (2 ^ (w - 2 - (run x).m))
    have hmod := Nat.mod_lt x.toNat (Nat.two_pow_pos (w - 2 - (run x).m))
    rw [hterm, Bool.toNat_true, show w - 1 - (run x).m - 1 = w - 2 - (run x).m by omega]
    omega

/-- Settles O31: an increment that is not suppressed gives the next pattern (`run_k_succ_ne_iff`). -/
theorem overflowIsACarryIntoTheRegime : Obligations.OverflowIsACarryIntoTheRegime := by
  intro F p bnp1 more sticky r g rem
  have hW := F.eight_le_W
  have hz := roundApply_z_toNat (by omega) p bnp1 more sticky
  have hbody := setWidth_body_toNat p
  have hp := p.isLt
  rw [roundApply_ovf (by omega)]
  change _ ↔ (roundApply p bnp1 more sticky).inc = true ∧ _
  cases hinc : (roundApply p bnp1 more sticky).inc with
  | false =>
    rw [hinc, Bool.toNat_false, Nat.add_zero, Nat.min_eq_left (by omega), ← hbody] at hz
    simp [BitVec.eq_of_toNat_eq hz]
  | true =>
    simp only [true_and]
    refine or_congr_right' fun hmax => ?_
    rw [hinc, Bool.toNat_true, Nat.min_eq_left (by omega), ← hbody] at hz
    rw [run_k_succ_ne_iff (by omega) hz (by omega), hbody]

/-! ### The range of the encoded pattern (R109 items 1 and 2) -/

/-- The magnitude that `encode_round` gives its sign: the packed body, rounded. -/
def encodedMagnitude (w es : Nat) (k : Int) (e ff : Nat) (st : Bool) : Rounded w :=
  roundApply (packFields w es k e ff).p (packFields w es k e ff).bnp1 (packFields w es k e ff).more st

theorem encodeRound_eq (w es : Nat) (s : Bool) (k : Int) (e ff : Nat) (st : Bool) :
    encodeRound w es s k e ff st =
      ⟨if s then negW (encodedMagnitude w es k e ff st).z else (encodedMagnitude w es k e ff st).z,
        (packFields w es k e ff).p, (packFields w es k e ff).bnp1, (encodedMagnitude w es k e ff st).more,
        (packFields w es k e ff).sat, (encodedMagnitude w es k e ff st).inc, (encodedMagnitude w es k e ff st).ovf⟩ :=
  rfl

/-- A magnitude between MINPOS and MAXPOS with its sign restored is neither ZERO nor NAR and has that sign. -/
theorem restoreSign_finite {w : Nat} (hw : 1 ≤ w) (s : Bool) {x : BitVec w} (hpos : 0 < x.toNat)
    (hlt : x.toNat < 2 ^ (w - 1)) :
    (if s then negW x else x) ≠ zeroPat w ∧ (if s then negW x else x) ≠ nar w ∧
      (if s then negW x else x).getLsbD (w - 1) = s := by
  obtain ⟨hz, hn, hsign⟩ := positive_pattern hw hpos hlt
  cases s with
  | false => exact ⟨hz, hn, hsign⟩
  | true =>
    obtain ⟨hz', hn'⟩ := negW_finite hw hz hn
    exact ⟨hz', hn', by rw [if_pos rfl, negW_sign hw hz hn, hsign]; rfl⟩

theorem encodedMagnitude_bounds {w es : Nat} (hw : 3 ≤ w) (k : Int) {e ff : Nat} (st : Bool) (he : e < 2 ^ es)
    (hff : ff < 2 ^ (2 * w)) :
    0 < (encodedMagnitude w es k e ff st).z.toNat ∧ (encodedMagnitude w es k e ff st).z.toNat < 2 ^ (w - 1) := by
  have hbody := (packFields_p_mem_regime hw k he hff).1
  have hmin := (regimeFloor_bounds hw k).1
  have htwo : 2 ≤ 2 ^ (w - 1) := Nat.le_pow (by omega)
  rw [encodedMagnitude, roundApply_z_toNat (by omega)]
  omega

/-- Settles O33: the magnitude is between MINPOS and MAXPOS (`encodedMagnitude_bounds`). -/
theorem encodedPatternIsFiniteAndNonZero : Obligations.EncodedPatternIsFiniteAndNonZero := by
  intro F sign k e ff st he hff
  have hW := F.eight_le_W
  obtain ⟨hpos, hlt⟩ := encodedMagnitude_bounds (by omega) k st he hff
  exact restoreSign_finite (by omega) sign hpos hlt

/-- Cutting the sign bit of a magnitude and putting it back changes nothing. -/
theorem setWidth_setWidth_body {w : Nat} {x : BitVec w} (hlt : x.toNat < 2 ^ (w - 1)) :
    (x.setWidth (w - 1)).setWidth w = x := by
  apply BitVec.eq_of_toNat_eq
  rw [setWidth_body_toNat, BitVec.toNat_setWidth, Nat.mod_eq_of_lt hlt]

/-- A magnitude that is packed without a round bit is encoded as it is. -/
theorem encodeRound_of_not_bnp1 {w es : Nat} {k : Int} {e ff : Nat} {x : BitVec w} {more sat : Bool}
    (hlt : x.toNat < 2 ^ (w - 1)) (hpack : packFields w es k e ff = ⟨x.setWidth (w - 1), false, more, sat⟩)
    (s st : Bool) :
    encodeRound w es s k e ff st =
      ⟨if s then negW x else x, x.setWidth (w - 1), false, more || st, sat, false, false⟩ := by
  rw [encodeRound_eq, encodedMagnitude, hpack, roundApply_of_not_bnp1, setWidth_setWidth_body hlt]

/-- A saturated magnitude is packed without a round bit, so it is encoded as it is. -/
theorem encodeRound_of_saturated {w es : Nat} (hw : 2 ≤ w) {k : Int} (h : w - 2 < regA k) (s : Bool) (e ff : Nat)
    (st : Bool) :
    encodeRound w es s k e ff st =
      ⟨if s then negW (if 0 ≤ k then maxpos w else minpos w) else if 0 ≤ k then maxpos w else minpos w,
        (if 0 ≤ k then maxpos w else minpos w).setWidth (w - 1), false, st, true, false, false⟩ := by
  refine encodeRound_of_not_bnp1 ?_ (packFields_of_saturated h) s st
  have hpow : 2 ≤ 2 ^ (w - 1) := Nat.le_pow (by omega)
  split
  · rw [maxpos_toNat (by omega)]
    omega
  · rw [minpos_toNat (by omega)]
    omega

/-- Settles O34: the run of either regime value is too long to pack (`encodeRound_of_saturated`). -/
theorem encSaturatesAtBothEnds : Obligations.EncSaturatesAtBothEnds := by
  intro F sign k e ff st r
  have hW := F.eight_le_W
  refine ⟨fun hk => ?_, fun hk => ?_⟩
  · have hlong : F.W - 2 < regA k := by rw [regA_of_nonneg (by omega)]; omega
    have henc := encodeRound_of_saturated (es := F.ES) (by omega) hlong sign e ff st
    rw [if_pos (show 0 ≤ k by omega)] at henc
    simp only [r, henc, and_self]
  · have hlong : F.W - 2 < regA k := by rw [regA_of_neg (by omega)]; omega
    have henc := encodeRound_of_saturated (es := F.ES) (by omega) hlong sign e ff st
    rw [if_neg (show ¬0 ≤ k by omega)] at henc
    simp only [r, henc, and_self]

/-! ### ENC inverts DEC (R109 item 5) -/

/-- Every pattern but ZERO and NAR is a positive magnitude with its sign restored, and has the fields of that
magnitude. -/
theorem exists_magnitude {w : Nat} (hw : 1 ≤ w) (es : Nat) {x : BitVec w} (hz : x ≠ zeroPat w) (hn : x ≠ nar w) :
    ∃ (s : Bool) (y : BitVec w), 0 < y.toNat ∧ y.toNat < 2 ^ (w - 1) ∧ (if s then negW y else y) = x ∧
      decompose es x = { decompose es y with sign := s } := by
  have hlt := magnitude_lt hw hn
  have hpos {y : BitVec w} (h : y ≠ zeroPat w) : 0 < y.toNat :=
    Nat.pos_of_ne_zero fun h0 => h (BitVec.eq_of_toNat_eq (h0.trans (zeroPat_toNat w).symm))
  obtain ⟨hz', -⟩ := negW_finite hw hz hn
  cases hs : x.getLsbD (w - 1) with
  | false =>
    rw [hs] at hlt
    exact ⟨false, x, hpos hz, hlt, rfl, congrArg (fun b => { decompose es x with sign := b }) hs⟩
  | true =>
    rw [hs] at hlt
    refine ⟨true, negW x, hpos hz', hlt, negW_negW x, ?_⟩
    rw [decompose_negW hw es hz hn]
    exact congrArg (fun b => { decompose es x with sign := b }) hs

/-- The negation of MAXPOS is no magnitude: its sign bit is 1. -/
theorem ne_negW_maxpos {w : Nat} (hw : 2 ≤ w) {x : BitVec w} (hlt : x.toNat < 2 ^ (w - 1)) : x ≠ negW (maxpos w) := by
  rintro rfl
  have hpow : 2 ≤ 2 ^ (w - 1) := Nat.le_pow (by omega)
  have hdouble := two_pow_pred_double (w := w) (by omega)
  have hmax := maxpos_toNat (w := w) (by omega)
  rw [negW_toNat_of_pos (by omega)] at hlt
  omega

/-- Settles O36: PACK gives the magnitude back without a round bit (O29), and the sign is restored. -/
theorem encInvertsDecompose : Obligations.EncInvertsDecompose := by
  intro F x hz hn d r
  have hW := F.eight_le_W
  obtain ⟨s, y, hpos, hlt, rfl, hd⟩ := exists_magnitude (by omega) F.ES hz hn
  have henc := encodeRound_of_not_bnp1 hlt (packInvertsDecompose F y hpos hlt) s false
  simp only [r, d, hd, henc, true_and, decide_eq_true_eq]
  have hne := ne_negW_maxpos (by omega) hlt
  cases s with
  | false => exact (or_iff_left hne).symm
  | true =>
    have hswap (z : BitVec F.W) : negW y = z ↔ y = negW z :=
      ⟨fun h => by rw [← h, negW_negW], fun h => by rw [h, negW_negW]⟩
    rw [if_pos rfl, hswap, hswap, negW_negW]
    exact (or_iff_right hne).symm

/-! ### Rounding up into MAXPOS (R109 item 3) -/

/-- The first discarded bit of the last regime that packs: the top bit of the exponent, or of the fraction where there is
no exponent. -/
def lastRegimeTop (w es e ff : Nat) : Nat := if es = 0 then ff / 2 ^ (2 * w - 1) else e / 2 ^ (es - 1)

/-- The bits below it, as a number that is 0 exactly when they all are. -/
def lastRegimeLower (w es e ff : Nat) : Nat := if es = 0 then ff % 2 ^ (2 * w - 1) else e % 2 ^ (es - 1) + ff

/-- The top bit of a number of `n + 1` bits. -/
theorem testBit_top {a n : Nat} (ha : a < 2 ^ (n + 1)) : a.testBit n = decide (a / 2 ^ n = 1) := by
  have hlt : a / 2 ^ n < 2 := by rwa [Nat.div_lt_iff_lt_mul (Nat.two_pow_pos n), ← Nat.pow_succ']
  rw [Nat.testBit_eq_decide_div_mod_eq, Nat.mod_eq_of_lt hlt]

/-- The last regime value that packs keeps neither exponent nor fraction. -/
theorem packFields_of_last_regime {w es : Nat} (hw : 3 ≤ w) {e ff : Nat} (he : e < 2 ^ es) (hff : ff < 2 ^ (2 * w)) :
    (packFields w es ((w : Int) - 3) e ff).p.toNat = 2 ^ (w - 1) - 2 ∧
      (packFields w es ((w : Int) - 3) e ff).bnp1 = decide (lastRegimeTop w es e ff = 1) ∧
      (packFields w es ((w : Int) - 3) e ff).more = decide (lastRegimeLower w es e ff ≠ 0) := by
  have hreg : regA ((w : Int) - 3) = w - 2 := by rw [regA_of_nonneg (by omega)]; omega
  have hfield : regimeField ((w : Int) - 3) = 2 ^ (w - 1) - 2 := by
    rw [regimeField, if_pos (by omega), hreg, show w - 2 + 1 = w - 1 by omega]
  rw [lastRegimeTop, lastRegimeLower]
  by_cases hes : es = 0
  · subst hes
    obtain ⟨hp, hb, hm, -⟩ := packFields_of_fraction_cut hw he hff (fracLength := 0) (by omega)
    rw [hp, hb, hm, hfield, testBit_top (by rwa [show 2 * w - 1 - 0 + 1 = 2 * w by omega])]
    refine ⟨?_, rfl, rfl⟩
    rw [Nat.sub_zero, Nat.div_eq_of_lt hff]
    omega
  · obtain ⟨hp, hb, hm, -⟩ := packFields_of_exponent_cut (k := (w : Int) - 3) hw he hff (t := es) (by omega) le_rfl
      (by omega)
    rw [hp, hb, hm, hfield, testBit_top (by rwa [show es - 1 + 1 = es by omega]), if_neg hes, if_neg hes]
    refine ⟨?_, rfl, ?_⟩
    · rw [Nat.sub_self, Nat.div_eq_of_lt he]
      omega
    · rw [← Bool.decide_or, decide_eq_decide]
      omega

/-- What `encode_round` makes of a positive number of the last regime that packs: the body MAXPOS − 1, which is even,
rounded by the bits that do not fit. -/
theorem encodeRound_of_last_regime {w es : Nat} (hw : 3 ≤ w) {e ff : Nat} (st : Bool) (he : e < 2 ^ es)
    (hff : ff < 2 ^ (2 * w)) :
    (encodeRound w es false ((w : Int) - 3) e ff st).inc =
        (decide (lastRegimeTop w es e ff = 1) && (decide (lastRegimeLower w es e ff ≠ 0) || st)) ∧
      (encodeRound w es false ((w : Int) - 3) e ff st).z.toNat =
        2 ^ (w - 1) - 2 + (encodeRound w es false ((w : Int) - 3) e ff st).inc.toNat ∧
      ((encodeRound w es false ((w : Int) - 3) e ff st).inc = true →
        (encodeRound w es false ((w : Int) - 3) e ff st).ovf = true) := by
  have hdouble : 2 ^ (w - 1) = 2 * 2 ^ (w - 2) := two_pow_pred_double (w := w - 1) (by omega)
  have hpow : 2 ≤ 2 ^ (w - 2) := Nat.le_pow (by omega)
  obtain ⟨hp, hb, hm⟩ := packFields_of_last_regime hw he hff
  have heven : (packFields w es ((w : Int) - 3) e ff).p.getLsbD 0 = false := by
    rw [← BitVec.testBit_toNat, hp, Nat.testBit_zero]
    exact decide_eq_false (by omega)
  have hz := roundApply_z_toNat (by omega) (packFields w es ((w : Int) - 3) e ff).p
    (packFields w es ((w : Int) - 3) e ff).bnp1 (packFields w es ((w : Int) - 3) e ff).more st
  have hinc := Bool.toNat_le (encodedMagnitude w es ((w : Int) - 3) e ff st).inc
  rw [← encodedMagnitude, hp, Nat.min_eq_left (by omega)] at hz
  rw [encodeRound_eq]
  refine ⟨?_, hz, fun hinc => ?_⟩
  · rw [encodedMagnitude, roundApply_inc, heven, hb, hm, Bool.false_or]
  · have hmax : (encodedMagnitude w es ((w : Int) - 3) e ff st).z = maxpos w := by
      apply BitVec.eq_of_toNat_eq
      rw [hz, maxpos_toNat (by omega)]
      change (encodedMagnitude w es ((w : Int) - 3) e ff st).inc = true at hinc
      rw [hinc, Bool.toNat_true]
      omega
    refine (roundApply_ovf (by omega) _ _ _ _).mpr (.inr ?_)
    rw [← encodedMagnitude, hmax, run_maxpos (by omega)]
    have hbody := (setWidth_body_toNat (packFields w es ((w : Int) - 3) e ff).p).trans hp
    have hbelow := le_run_k hw (by rw [hbody]; omega) (by rw [hbody]; omega) (le_refl ((w : Int) - 2))
      (x := (packFields w es ((w : Int) - 3) e ff).p.setWidth w)
    rw [hbody, regimeFloor, if_pos (by omega), show w - 2 - ((w : Int) - 2).toNat = 0 by omega] at hbelow
    intro heq
    have := hbelow.mp heq.le
    omega

/-- Settles O35: there is an increment exactly when the first discarded bit is 1 and something below it is not 0
(`encodeRound_of_last_regime`). -/
theorem encRoundsUpIntoMaxpos : Obligations.EncRoundsUpIntoMaxpos := by
  intro F e ff st he hff r top lower
  have hW := F.eight_le_W
  have hpow : 2 ≤ 2 ^ (F.W - 1) := Nat.le_pow (by omega)
  obtain ⟨hinc, hz, hovf⟩ := encodeRound_of_last_regime (by omega) st he hff
  change r.inc = (decide (top = 1) && (decide (lower ≠ 0) || st)) at hinc
  change r.z.toNat = 2 ^ (F.W - 1) - 2 + r.inc.toNat at hz
  refine ⟨fun htop hlow => ?_, fun htop hlow hst => ?_, fun htop => ?_⟩
  · have hone : r.inc = true := by
      rw [hinc, decide_eq_true htop, Bool.true_and, Bool.or_eq_true, decide_eq_true_eq]
      exact hlow
    refine ⟨BitVec.eq_of_toNat_eq ?_, hovf hone⟩
    rw [hz, hone, maxpos_toNat (by omega), Bool.toNat_true]
    omega
  · have hzero : r.inc = false := by simp [hinc, hlow, hst]
    exact ⟨by rw [hz, hzero]; rfl, hzero⟩
  · have hzero : r.inc = false := by simp [hinc, htop]
    exact ⟨by rw [hz, hzero]; rfl, hzero⟩

end Sys2Proof.Machine
end

section
/-! The rounding engine family (41_rounding_engine.md), second part: ENC is correctly rounded (R109 items 4 and 7).

A number 2^s · (1 + φ) is placed at the point s + φ of a line. Its value and its place among the patterns, counted in units
of the last bit, are both increasing in that point, since both interpolate an increasing sequence. A pattern is the number
whose place it is, the pattern of W + 1 bits between two others stands half way between their places, and `encode_round`
rounds the place to the nearest even integer. -/

namespace Sys2Proof.Machine

/-! ### Interpolation -/

/-- The function that takes the values of a sequence at the integers and is linear between them. -/
def interpolate (a : Int → ℚ) (t : ℚ) : ℚ := a ⌊t⌋ + Int.fract t * (a (⌊t⌋ + 1) - a ⌊t⌋)

theorem interpolate_add (a : Int → ℚ) (n : Int) {φ : ℚ} (h₀ : 0 ≤ φ) (h₁ : φ < 1) :
    interpolate a (n + φ) = a n + φ * (a (n + 1) - a n) := by
  have hfloor : ⌊(n : ℚ) + φ⌋ = n := by rw [Int.floor_intCast_add, Int.floor_eq_zero_iff.mpr ⟨h₀, h₁⟩, add_zero]
  rw [interpolate, Int.fract, hfloor, add_sub_cancel_left]

theorem interpolate_strictMono {a : Int → ℚ} (ha : StrictMono a) : StrictMono (interpolate a) := by
  intro t t' h
  have hstep (n : Int) : 0 < a (n + 1) - a n := sub_pos.mpr (ha (lt_add_one n))
  rcases (Int.floor_mono h.le).lt_or_eq with hlt | heq
  · have hnext : a (⌊t⌋ + 1) ≤ a ⌊t'⌋ := ha.monotone hlt
    calc interpolate a t < a ⌊t⌋ + 1 * (a (⌊t⌋ + 1) - a ⌊t⌋) := by
          rw [interpolate, add_lt_add_iff_left]
          exact mul_lt_mul_of_pos_right (Int.fract_lt_one t) (hstep _)
      _ ≤ a ⌊t'⌋ := by linarith
      _ ≤ interpolate a t' := le_add_of_nonneg_right (mul_nonneg (Int.fract_nonneg t') (hstep _).le)
  · have hfract : Int.fract t < Int.fract t' := by
      rw [Int.fract, Int.fract, heq]
      linarith
    rw [interpolate, interpolate, heq, add_lt_add_iff_left]
    exact mul_lt_mul_of_pos_right hfract (hstep _)

/-! ### The point, the value and the place of a number -/

/-- The point of the number with fields k and e and fraction φ. -/
def fieldsPoint (es : Nat) (k : Int) (e : Nat) (φ : ℚ) : ℚ := k * 2 ^ es + e + φ

/-- The value of the number at a point: 2^s at the integer s, and linear between. -/
def valueAt (u : ℚ) : ℚ := interpolate (fun s => 2 ^ s) u

theorem valueAt_strictMono : StrictMono valueAt :=
  interpolate_strictMono (zpow_right_strictMono₀ one_lt_two)

theorem valueAt_fieldsPoint (es : Nat) (k : Int) (e : Nat) {φ : ℚ} (h₀ : 0 ≤ φ) (h₁ : φ < 1) :
    valueAt (fieldsPoint es k e φ) = 2 ^ (k * 2 ^ es + e : Int) * (1 + φ) := by
  have hpoint : fieldsPoint es k e φ = ((k * 2 ^ es + e : Int) : ℚ) + φ := by
    rw [fieldsPoint]
    push_cast
    rfl
  rw [valueAt, hpoint, interpolate_add _ _ h₀ h₁, zpow_add_one₀ two_ne_zero]
  ring

/-- Where the regime k starts, in units of the pattern ONE: 1/4, 1/2, 1, 3/2, 7/4, … -/
def regimeStart (k : Int) : ℚ := regimeField k / 2 ^ regA k

theorem regimeStart_of_nonneg {k : Int} (h : 0 ≤ k) : regimeStart k = 2 - 2 ^ (-k) := by
  obtain ⟨n, rfl⟩ := Int.eq_ofNat_of_zero_le h
  have htwo : 2 ≤ 2 ^ (n + 1 + 1) := Nat.le_pow (by omega)
  rw [regimeStart, regimeField, if_pos h, regA_of_nonneg h, Int.toNat_natCast, Nat.cast_sub htwo, zpow_neg,
    zpow_natCast]
  push_cast
  field_simp
  ring

theorem regimeStart_of_neg {k : Int} (h : ¬0 ≤ k) : regimeStart k = 2 ^ k := by
  obtain ⟨n, hn⟩ := Int.eq_ofNat_of_zero_le (show 0 ≤ -k by omega)
  obtain rfl : k = -(n : Int) := by omega
  rw [regimeStart, regimeField, if_neg h, regA_of_neg h, neg_neg, Int.toNat_natCast, zpow_neg, zpow_natCast,
    Nat.cast_one, one_div]

/-- A regime ends where the next starts: the longer its run, the shorter it is. -/
theorem regimeStart_succ (k : Int) : regimeStart (k + 1) = regimeStart k + 1 / 2 ^ regA k := by
  rcases lt_trichotomy k (-1) with h | rfl | h
  · obtain ⟨n, hn⟩ := Int.eq_ofNat_of_zero_le (show 0 ≤ -k by omega)
    obtain rfl : k = -(n : Int) := by omega
    rw [regimeStart_of_neg (by omega), regimeStart_of_neg (by omega), regA_of_neg (by omega),
      zpow_add_one₀ two_ne_zero, neg_neg, Int.toNat_natCast, zpow_neg, zpow_natCast]
    ring
  · norm_num [regimeStart, regimeField, regA]
  · obtain ⟨n, rfl⟩ := Int.eq_ofNat_of_zero_le (show 0 ≤ k by omega)
    rw [regimeStart_of_nonneg (by omega), regimeStart_of_nonneg (by omega), regA_of_nonneg (by omega),
      Int.toNat_natCast, neg_add, zpow_add₀ two_ne_zero, zpow_neg, zpow_natCast]
    field_simp
    ring

theorem regimeStart_strictMono : StrictMono regimeStart :=
  strictMono_int_of_lt_succ fun k => by
    rw [regimeStart_succ]
    exact lt_add_of_pos_right _ (by positivity)

/-- The place of the number at a point among the patterns of `w` bits, in units of the last bit. -/
def placeAt (w es : Nat) (u : ℚ) : ℚ := 2 ^ (w - 2) * interpolate regimeStart (u / 2 ^ es)

theorem placeAt_strictMono (w es : Nat) : StrictMono (placeAt w es) := by
  intro u u' h
  have hdiv : u / 2 ^ es < u' / 2 ^ es := div_lt_div_of_pos_right h (by positivity)
  exact mul_lt_mul_of_pos_left (interpolate_strictMono regimeStart_strictMono hdiv) (by positivity)

/-- One more bit halves the unit. -/
theorem placeAt_succ {w : Nat} (hw : 2 ≤ w) (es : Nat) (u : ℚ) : placeAt (w + 1) es u = 2 * placeAt w es u := by
  rw [placeAt, placeAt, show w + 1 - 2 = w - 2 + 1 by omega, pow_succ]
  ring

/-- A place is its regime's start and, in the same regime, exponent and fraction. -/
theorem placeAt_fieldsPoint (w : Nat) {es : Nat} (k : Int) {e : Nat} {φ : ℚ} (he : e < 2 ^ es) (h₀ : 0 ≤ φ)
    (h₁ : φ < 1) :
    placeAt w es (fieldsPoint es k e φ) = 2 ^ (w - 2) * (regimeStart k + (e + φ) / 2 ^ es / 2 ^ regA k) := by
  have he' : (e : ℚ) + 1 ≤ 2 ^ es := by exact_mod_cast he
  have hpoint : fieldsPoint es k e φ / 2 ^ es = k + (e + φ) / 2 ^ es := by
    rw [fieldsPoint]
    field_simp
    ring
  rw [placeAt, hpoint, interpolate_add _ _ (by positivity) ((div_lt_one (by positivity)).mpr (by linarith)),
    regimeStart_succ]
  ring

/-- The unrounded string, with what the sticky bit stands for below its last bit, is the place. -/
theorem placeAt_eq_unrounded {w es : Nat} (hw : 2 ≤ w) (k : Int) {e ff : Nat} {δ : ℚ} (he : e < 2 ^ es)
    (hff : ff < 2 ^ (2 * w)) (h₀ : 0 ≤ δ) (h₁ : δ < 1) :
    placeAt w es (fieldsPoint es k e ((ff + δ) / 2 ^ (2 * w))) * 2 ^ discarded w es k = unrounded w es k e ff + δ := by
  have hff' : (ff : ℚ) + 1 ≤ 2 ^ (2 * w) := by exact_mod_cast hff
  rw [placeAt_fieldsPoint w k he (by positivity) ((div_lt_one (by positivity)).mpr (by linarith)), regimeStart,
    unrounded_eq, discarded, show regA k + es + w + 2 = regA k + es + (w - 2) + 4 by omega]
  obtain ⟨v, rfl⟩ : ∃ v, w = v + 2 := ⟨w - 2, by omega⟩
  push_cast
  field_simp
  ring

/-! ### The point of a pattern -/

theorem placeAt_maxpos {w : Nat} (hw : 2 ≤ w) (es : Nat) :
    placeAt w es (fieldsPoint es ((w : Int) - 2) 0 0) = (maxpos w).toNat := by
  obtain ⟨v, rfl⟩ : ∃ v, w = v + 2 := ⟨w - 2, by omega⟩
  have hpow : 1 ≤ 2 ^ (v + 2 - 1) := Nat.two_pow_pos _
  rw [placeAt_fieldsPoint _ _ (Nat.two_pow_pos es) le_rfl one_pos, regimeStart_of_nonneg (by omega),
    maxpos_toNat (by omega), Nat.cast_sub hpow, show -(((v + 2 : Nat) : Int) - 2) = -(v : Int) by omega, zpow_neg,
    zpow_natCast]
  push_cast
  field_simp
  ring

theorem placeAt_minpos {w : Nat} (hw : 3 ≤ w) (es : Nat) : placeAt w es (fieldsPoint es (2 - w) 0 0) = 1 := by
  obtain ⟨v, rfl⟩ : ∃ v, w = v + 2 := ⟨w - 2, by omega⟩
  rw [placeAt_fieldsPoint _ _ (Nat.two_pow_pos es) le_rfl one_pos, regimeStart_of_neg (by omega),
    show 2 - ((v + 2 : Nat) : Int) = -(v : Int) by omega, zpow_neg, zpow_natCast, Nat.add_sub_cancel]
  simp

/-- A regime value that is not less gives a point that is not less. -/
theorem fieldsPoint_le {es : Nat} {k k' : Int} (h : k ≤ k') (e : Nat) {φ : ℚ} (h₀ : 0 ≤ φ) :
    fieldsPoint es k 0 0 ≤ fieldsPoint es k' e φ := by
  have hk : (k : ℚ) * 2 ^ es ≤ k' * 2 ^ es := mul_le_mul_of_nonneg_right (by exact_mod_cast h) (by positivity)
  have he : (0 : ℚ) ≤ e := Nat.cast_nonneg e
  rw [fieldsPoint, fieldsPoint, Nat.cast_zero]
  linarith

/-- A smaller regime value gives a smaller point, whatever the exponent and the fraction are. -/
theorem fieldsPoint_lt {es : Nat} {k k' : Int} (h : k < k') {e : Nat} {φ : ℚ} (he : e < 2 ^ es) (h₁ : φ < 1) :
    fieldsPoint es k e φ < fieldsPoint es k' 0 0 := by
  have hk : ((k : ℚ) + 1) * 2 ^ es ≤ k' * 2 ^ es := mul_le_mul_of_nonneg_right (by exact_mod_cast h) (by positivity)
  have he' : (e : ℚ) + 1 ≤ 2 ^ es := by exact_mod_cast he
  rw [fieldsPoint, fieldsPoint, Nat.cast_zero]
  linarith

/-- The point of a pattern: that of its fields. -/
def patternPoint {w : Nat} (es : Nat) (x : BitVec w) : ℚ :=
  fieldsPoint es (decompose es x).k (decompose es x).e ((decompose es x).f / 2 ^ (decompose es x).fl)

/-- The value of a positive pattern is the value at its point. -/
theorem val_eq_valueAt {w : Nat} (hw : 1 ≤ w) (es : Nat) {x : BitVec w} (hpos : 0 < x.toNat)
    (hlt : x.toNat < 2 ^ (w - 1)) : val es x = some (valueAt (patternPoint es x)) := by
  obtain ⟨hz, hn, hs⟩ := positive_pattern hw hpos hlt
  have hsign : (decompose es x).sign = false := hs
  have hf : ((decompose es x).f : ℚ) < 2 ^ (decompose es x).fl := by exact_mod_cast decompose_f_lt es x
  rw [val_finite hn hz rfl, hsign, if_neg Bool.false_ne_true, one_mul, patternPoint,
    valueAt_fieldsPoint _ _ _ (by positivity) ((div_lt_one (by positivity)).mpr hf)]
  rfl

/-- The fraction of DEC, moved to the top of the port of PACK, fits that port and stands for the same number. -/
theorem decompose_f_at_top {w : Nat} (es : Nat) (x : BitVec w) (hw : 3 ≤ w) :
    (decompose es x).f * 2 ^ (w - 3 - (decompose es x).fl) * 2 ^ (w + 3) < 2 ^ (2 * w) ∧
      (((decompose es x).f * 2 ^ (w - 3 - (decompose es x).fl) * 2 ^ (w + 3) : Nat) : ℚ) / 2 ^ (2 * w) =
        (decompose es x).f / 2 ^ (decompose es x).fl := by
  have hfl := decompose_fl_le es x hw
  constructor
  · rw [show 2 * w = w - 3 + (w + 3) by omega, Nat.pow_add 2 (w - 3)]
    exact Nat.mul_lt_mul_of_pos_right (decompose_f_aligned_lt es x hw) (Nat.two_pow_pos _)
  · rw [div_eq_div_iff (by positivity) (by positivity)]
    push_cast
    rw [mul_assoc, mul_assoc, ← pow_add, ← pow_add]
    congr 2
    omega

/-- The place of a positive pattern is the pattern. -/
theorem placeAt_patternPoint {w : Nat} (hw : 3 ≤ w) (es : Nat) {x : BitVec w} (hpos : 0 < x.toNat)
    (hlt : x.toNat < 2 ^ (w - 1)) : placeAt w es (patternPoint es x) = x.toNat := by
  cases hterm : (run x).term with
  | false =>
    obtain rfl := eq_maxpos_of_not_term (by omega) hpos hlt hterm
    rw [patternPoint, decompose_maxpos (by omega), Nat.cast_zero, zero_div]
    exact placeAt_maxpos (by omega) es
  | true =>
    obtain ⟨hff, hφ⟩ := decompose_f_at_top es x hw
    have hplace := placeAt_eq_unrounded (by omega) (decompose es x).k (decompose_e_lt es x) hff le_rfl one_pos
    rw [add_zero, add_zero, hφ, unrounded_decompose hw hpos hlt hterm, Nat.cast_mul, Nat.cast_pow,
      Nat.cast_ofNat] at hplace
    exact mul_right_cancel₀ (by positivity) hplace

/-- The order of values is the order of places. -/
theorem compare_val {w es : Nat} (hw : 3 ≤ w) {x : BitVec w} (hpos : 0 < x.toNat) (hlt : x.toNat < 2 ^ (w - 1)) {r : ℚ}
    (hr : val es x = some r) (u : ℚ) :
    (valueAt u ≤ r ↔ placeAt w es u ≤ x.toNat) ∧ (r ≤ valueAt u ↔ (x.toNat : ℚ) ≤ placeAt w es u) := by
  obtain rfl : valueAt (patternPoint es x) = r :=
    Option.some.inj ((val_eq_valueAt (by omega) es hpos hlt).symm.trans hr)
  rw [← placeAt_patternPoint hw es hpos hlt, valueAt_strictMono.le_iff_le, valueAt_strictMono.le_iff_le,
    (placeAt_strictMono w es).le_iff_le, (placeAt_strictMono w es).le_iff_le]
  exact ⟨Iff.rfl, Iff.rfl⟩

/-! ### Rounding a place to the nearest even integer -/

/-- `z` is the integer from 1 to `max` nearest to `q`, the even one of two where `q` is half way between them. -/
structure NearestEven (max : Nat) (q : ℚ) (z : Nat) : Prop where
  bottom : q ≤ 1 → z = 1
  top : (max : ℚ) ≤ q → z = max
  between : ∀ n : Nat, 0 < n → n < max → (n : ℚ) ≤ q → q ≤ n + 1 →
    (q < n + 1 / 2 → z = n) ∧ (n + 1 / 2 < q → z = n + 1) ∧ (q = n + 1 / 2 → z = if n % 2 = 0 then n else n + 1)

/-- The number at a point is rounded correctly when its place is (R109 item 7). -/
theorem NearestEven.roundsMagnitude {w es : Nat} (hw : 3 ≤ w) {u : ℚ} {z : BitVec w}
    (h : NearestEven (2 ^ (w - 1) - 1) (placeAt w es u) z.toNat) : RoundsMagnitude es (valueAt u) z := by
  have htwo : 2 ≤ 2 ^ (w - 1) := Nat.le_pow (by omega)
  have hdouble := two_pow_pred_double (w := w) (by omega)
  have hmin := minpos_toNat (w := w) (by omega)
  have hmax := maxpos_toNat (w := w) (by omega)
  refine ⟨fun lo hlo hle => ?_, fun hi hhi hle => ?_, fun x hpos hlt lo mid hi hlo hmid hhi hle hge => ?_⟩
  · rw [(compare_val hw (by omega) (by omega) hlo u).1, hmin, Nat.cast_one] at hle
    exact BitVec.eq_of_toNat_eq ((h.bottom hle).trans hmin.symm)
  · rw [(compare_val hw (by omega) (by omega) hhi u).2, hmax] at hle
    exact BitVec.eq_of_toNat_eq ((h.top hle).trans hmax.symm)
  · have hone : (1 : BitVec w).toNat = 1 := BitVec.toNat_one (by omega)
    have hsucc : (x + 1).toNat = x.toNat + 1 := by rw [BitVec.toNat_add_of_lt (by omega), hone]
    have hbetween : (BitVec.ofNat (w + 1) (2 * x.toNat + 1)).toNat = 2 * x.toNat + 1 := by
      rw [BitVec.toNat_ofNat, Nat.mod_eq_of_lt (by rw [Nat.pow_succ]; omega)]
    rw [(compare_val hw hpos (by omega) hlo u).2] at hle
    rw [(compare_val hw (by omega) (by omega) hhi u).1, hsucc, Nat.cast_succ] at hge
    obtain ⟨hmid₁, hmid₂⟩ := compare_val (by omega) (by omega) (by rw [hbetween, Nat.add_sub_cancel]; omega) hmid u
    rw [placeAt_succ (by omega), hbetween, Nat.cast_succ, Nat.cast_mul, Nat.cast_ofNat] at hmid₁ hmid₂
    obtain ⟨hbelow, habove, htie⟩ := h.between x.toNat hpos (by omega) hle hge
    refine ⟨fun hv => ?_, fun hv => ?_, fun hv => ?_⟩
    · rw [← not_le, hmid₂] at hv
      exact BitVec.eq_of_toNat_eq (hbelow (by linarith))
    · rw [← not_le, hmid₁] at hv
      exact BitVec.eq_of_toNat_eq ((habove (by linarith)).trans hsucc.symm)
    · have hle₁ := hmid₁.mp hv.le
      have hle₂ := hmid₂.mp hv.ge
      have hz := htie (by linarith)
      apply BitVec.eq_of_toNat_eq
      rw [hz]
      split
      · rfl
      · exact hsucc.symm

theorem NearestEven.of_lt_one {max : Nat} {q : ℚ} (hmax : 1 < max) (hq : q < 1) : NearestEven max q 1 where
  bottom _ := rfl
  top h := by
    have : (1 : ℚ) < max := by exact_mod_cast hmax
    linarith
  between n hn _ hle _ := by
    have : (1 : ℚ) ≤ n := by exact_mod_cast hn
    linarith

theorem NearestEven.of_max_le {max : Nat} {q : ℚ} (hmax : 1 < max) (hq : max ≤ q) : NearestEven max q max where
  bottom h := by
    have : (1 : ℚ) < max := by exact_mod_cast hmax
    linarith
  top _ := rfl
  between n _ hn _ hle := by
    have hn' : (n : ℚ) + 1 ≤ max := by exact_mod_cast hn
    have hnext : n + 1 = max := by
      have : (max : ℚ) ≤ n + 1 := hq.trans hle
      exact le_antisymm hn (by exact_mod_cast this)
    exact ⟨fun h => by linarith, fun _ => hnext.symm, fun h => by linarith⟩

/-- The increment of R101 rounds to nearest even: `b` is the first bit below the integer `p`, and `θ`, in units of that
bit, what follows it. -/
theorem NearestEven.of_increment {max p : Nat} (hp : 1 ≤ p) (hmax : p < max) (b : Bool) {θ : ℚ} (h₀ : 0 ≤ θ) (h₁ : θ < 1) :
    NearestEven max (p + (b.toNat + θ) / 2) (p + (b && (decide (p % 2 = 1) || decide (θ ≠ 0))).toNat) := by
  have hp' : (1 : ℚ) ≤ p := by exact_mod_cast hp
  have hmax' : (p : ℚ) + 1 ≤ max := by exact_mod_cast hmax
  have hle {m n : Nat} (h : (m : ℚ) < n + 1) : m ≤ n := Nat.lt_succ_iff.mp (by exact_mod_cast h)
  cases b with
  | false =>
    simp only [Bool.toNat_false, Bool.false_and, Nat.cast_zero, zero_add, add_zero]
    refine ⟨fun h => le_antisymm (hle (by rw [Nat.cast_one]; linarith)) hp, fun h => by linarith, fun n _ _ hlo hhi => ?_⟩
    have hn : n ≤ p := hle (by linarith)
    rcases hn.lt_or_eq with hlt | rfl
    · have hnext : (n : ℚ) + 1 ≤ p := by exact_mod_cast hlt
      have hn1 : p ≤ n + 1 := hle (by push_cast; linarith)
      exact ⟨fun h => by linarith, fun _ => by omega, fun h => by linarith⟩
    · exact ⟨fun _ => rfl, fun h => by linarith, fun h => by linarith⟩
  | true =>
    simp only [Bool.toNat_true, Bool.true_and, Nat.cast_one]
    refine ⟨fun h => by linarith, fun h => by linarith, fun n _ _ hlo hhi => ?_⟩
    obtain rfl : n = p := le_antisymm (hle (by linarith)) (hle (by linarith))
    refine ⟨fun h => by linarith, fun h => ?_, fun h => ?_⟩
    · have hθ : θ ≠ 0 := by rintro rfl; linarith
      rw [decide_eq_true hθ, Bool.or_true, Bool.toNat_true]
    · obtain rfl : θ = 0 := by linarith
      rcases Nat.mod_two_eq_zero_or_one n with hpar | hpar <;> simp [hpar]

/-! ### ENC rounds the place -/

/-- The place of a number whose regime packs: the packed body, the round bit and, below it, something that is 0 exactly
when the accumulated sticky bit is. -/
theorem placeAt_eq_packed {w es : Nat} (hw : 3 ≤ w) {k : Int} {e ff : Nat} {δ : ℚ} {st : Bool} (h : regA k ≤ w - 2)
    (he : e < 2 ^ es) (hff : ff < 2 ^ (2 * w)) (h₀ : 0 ≤ δ) (h₁ : δ < 1) (hst : st = decide (δ ≠ 0)) :
    ∃ θ : ℚ, 0 ≤ θ ∧ θ < 1 ∧ ((packFields w es k e ff).more || st) = decide (θ ≠ 0) ∧
      placeAt w es (fieldsPoint es k e ((ff + δ) / 2 ^ (2 * w))) =
        (packFields w es k e ff).p.toNat + ((packFields w es k e ff).bnp1.toNat + θ) / 2 := by
  have hplace := placeAt_eq_unrounded (by omega) k he hff h₀ h₁
  obtain ⟨n, hn⟩ : ∃ n, discarded w es k = n + 1 := ⟨regA k + es + w + 1, rfl⟩
  rw [packFields_p_toNat hw h he hff, packFields_of_fits h]
  simp only [hn, Nat.add_sub_cancel] at hplace ⊢
  generalize unrounded w es k e ff = X at hplace ⊢
  have hX : X = (2 * (X / 2 ^ (n + 1)) + (X.testBit n).toNat) * 2 ^ n + X % 2 ^ n := by
    rw [← div_two_pow_eq_double_add_bit, Nat.div_add_mod']
  have hmod : X % 2 ^ n + 1 ≤ 2 ^ n := Nat.mod_lt X (Nat.two_pow_pos n)
  generalize X / 2 ^ (n + 1) = p at hX ⊢
  generalize X.testBit n = b at hX ⊢
  generalize X % 2 ^ n = m at hX hmod ⊢
  have hm : (m : ℚ) + 1 ≤ 2 ^ n := by exact_mod_cast hmod
  refine ⟨(m + δ) / 2 ^ n, by positivity, (div_lt_one (by positivity)).mpr (by linarith), ?_, ?_⟩
  · rw [hst, ← Bool.decide_or, decide_eq_decide, div_ne_zero_iff,
      and_iff_left (show (2 : ℚ) ^ n ≠ 0 by positivity), Ne, Ne, Ne,
      add_eq_zero_iff_of_nonneg (Nat.cast_nonneg m) h₀, Nat.cast_eq_zero, not_and_or]
  · rw [hX] at hplace
    push_cast at hplace
    rw [← mul_left_inj' (show (2 : ℚ) ^ (n + 1) ≠ 0 by positivity), hplace, pow_succ]
    field_simp
    ring

theorem encodedMagnitude_toNat_of_saturated {w es : Nat} (hw : 2 ≤ w) {k : Int} (h : w - 2 < regA k) (e ff : Nat)
    (st : Bool) : (encodedMagnitude w es k e ff st).z.toNat = if 0 ≤ k then 2 ^ (w - 1) - 1 else 1 := by
  have hz : (encodedMagnitude w es k e ff st).z = if 0 ≤ k then maxpos w else minpos w :=
    congrArg Encoded.z (encodeRound_of_saturated hw h false e ff st)
  rw [hz, apply_ite BitVec.toNat, maxpos_toNat (by omega), minpos_toNat (by omega)]

/-- The magnitude that `encode_round` makes of a number is its place rounded to nearest even, held between MINPOS and
MAXPOS; `δ` is what the sticky bit stands for, in units of the last fraction bit (R107). -/
theorem encodedMagnitude_nearestEven {w es : Nat} (hw : 3 ≤ w) (k : Int) {e ff : Nat} {δ : ℚ} {st : Bool}
    (he : e < 2 ^ es) (hff : ff < 2 ^ (2 * w)) (h₀ : 0 ≤ δ) (h₁ : δ < 1) (hst : st = decide (δ ≠ 0)) :
    NearestEven (2 ^ (w - 1) - 1) (placeAt w es (fieldsPoint es k e ((ff + δ) / 2 ^ (2 * w))))
      (encodedMagnitude w es k e ff st).z.toNat := by
  have hfour : 2 ^ 2 ≤ 2 ^ (w - 1) := Nat.pow_le_pow_right (by omega) (by omega)
  by_cases h : regA k ≤ w - 2
  · obtain ⟨θ, hθ₀, hθ₁, hθ, hplace⟩ := placeAt_eq_packed hw h he hff h₀ h₁ hst
    obtain ⟨hlo, hhi⟩ := packFields_p_of_fits hw h he hff
    have hmin := (regimeFloor_bounds hw k).1
    have hmax := (regimeFloor_bounds hw (k + 1)).2
    have hinc := Bool.toNat_le (encodedMagnitude w es k e ff st).inc
    have hz := roundApply_z_toNat (by omega) (packFields w es k e ff).p (packFields w es k e ff).bnp1
      (packFields w es k e ff).more st
    rw [← encodedMagnitude, Nat.min_eq_left (by omega)] at hz
    rw [hz, hplace, encodedMagnitude, roundApply_inc, hθ, ← BitVec.testBit_toNat, Nat.testBit_zero]
    exact NearestEven.of_increment (by omega) (by omega) _ hθ₀ hθ₁
  · have hff' : (ff : ℚ) + 1 ≤ 2 ^ (2 * w) := by exact_mod_cast hff
    have hφ : ((ff : ℚ) + δ) / 2 ^ (2 * w) < 1 := (div_lt_one (by positivity)).mpr (by linarith)
    rw [encodedMagnitude_toNat_of_saturated (by omega) (not_le.mp h)]
    by_cases hk : 0 ≤ k
    · rw [regA_of_nonneg hk] at h
      rw [if_pos hk]
      refine NearestEven.of_max_le (by omega) ?_
      rw [← maxpos_toNat (by omega), ← placeAt_maxpos (by omega) es]
      exact (placeAt_strictMono w es).monotone (fieldsPoint_le (by omega) e (by positivity))
    · rw [regA_of_neg hk] at h
      rw [if_neg hk]
      refine NearestEven.of_lt_one (by omega) ?_
      rw [← placeAt_minpos hw es]
      exact placeAt_strictMono w es (fieldsPoint_lt (by omega) he hφ)

/-- A magnitude rounded correctly and given its sign is rounded correctly (R109 item 4). -/
theorem RoundsMagnitude.roundsTo {w es : Nat} {v : ℚ} {z : BitVec w} (h : RoundsMagnitude es v z) (hv : 0 < v)
    (s : Bool) : RoundsTo es (if s then -v else v) (if s then negW z else z) := by
  cases s with
  | false => exact ⟨fun _ => h, fun hneg => absurd hneg hv.not_gt⟩
  | true =>
    refine ⟨fun hpos => absurd hpos (not_lt.mpr (neg_nonpos.mpr hv.le)), fun _ => ?_⟩
    rw [if_pos rfl, if_pos rfl, neg_neg, negW_negW]
    exact h

/-- `encode_round` rounds correctly the number whose fraction is `ff + δ` in units of the last fraction bit, for every
width and exponent width. -/
theorem encodeRound_roundsTo {w es : Nat} (hw : 3 ≤ w) (s : Bool) (k : Int) {e ff : Nat} {δ : ℚ} {st : Bool}
    (he : e < 2 ^ es) (hff : ff < 2 ^ (2 * w)) (h₀ : 0 ≤ δ) (h₁ : δ < 1) (hst : st = decide (δ ≠ 0)) {v : ℚ}
    (hv : v = 2 ^ (k * 2 ^ es + e : Int) * (1 + (ff + δ) / 2 ^ (2 * w))) :
    RoundsTo es (if s then -v else v) (encodeRound w es s k e ff st).z := by
  have hff' : (ff : ℚ) + 1 ≤ 2 ^ (2 * w) := by exact_mod_cast hff
  have hpoint := valueAt_fieldsPoint es k e (φ := (ff + δ) / 2 ^ (2 * w)) (by positivity)
    ((div_lt_one (by positivity)).mpr (by linarith))
  have hround := (encodedMagnitude_nearestEven hw k he hff h₀ h₁ hst).roundsMagnitude hw
  rw [hpoint, ← hv] at hround
  exact hround.roundsTo (hv ▸ by positivity) s

/-- Settles O37: the sticky bit tells whether the number lies above its last fraction bit, so the number is as
`encodeRound_roundsTo` asks. -/
theorem encIsCorrectlyRounded : Obligations.EncIsCorrectlyRounded := by
  intro F s k e ff st v he hff hexact hsticky
  have hW := F.eight_le_W
  cases st with
  | false =>
    refine encodeRound_roundsTo (by omega) s k he hff (δ := 0) le_rfl one_pos (by simp) ?_
    rw [hexact rfl, fieldsValue, add_zero]
  | true =>
    obtain ⟨hlo, hhi⟩ := hsticky rfl
    have hunit : (0 : ℚ) < 2 ^ (k * 2 ^ F.ES + e : Int) / 2 ^ (2 * F.W) := by positivity
    have hδ : 0 < (v - fieldsValue F.W F.ES k e ff) / (2 ^ (k * 2 ^ F.ES + e : Int) / 2 ^ (2 * F.W)) :=
      div_pos (sub_pos.mpr hlo) hunit
    refine encodeRound_roundsTo (by omega) s k he hff hδ.le ((div_lt_one hunit).mpr (by linarith))
      (decide_eq_true hδ.ne').symm ?_
    rw [fieldsValue]
    field_simp
    ring

end Sys2Proof.Machine
end

section
/-! The multiply and divide family (42_multiply_divide.md), first part: MUL and DIV as one rounding.

The finite paths of `posit_mul` and `posit_div` end alike: an exact integer `n`, with a remainder `ρ` below its last bit,
whose leading bit has weight 2^N or 2^(N+1), is brought to a significand and encoded with its scale. That tail rounds
(n + ρ) / 2^N times its scale correctly (`encodeLeading_roundsTo`), and the product and the quotient are two such
numbers. -/

namespace Sys2Proof.Machine

/-! ### The value of an operand from its significand (R79) -/

/-- The magnitude that the fields of a decomposed operand stand for: its significand at its scale. -/
def Dec.magnitude (w es : Nat) (d : Dec) : ℚ := 2 ^ d.scale es * (d.sig w / 2 ^ (w - 3))

theorem sig_pos (w : Nat) (d : Dec) : 0 < d.sig w := Nat.add_pos_left (Nat.two_pow_pos _) _

theorem magnitude_pos (w es : Nat) (d : Dec) : 0 < d.magnitude w es := by
  have hsig := sig_pos w d
  rw [Dec.magnitude]
  positivity

/-- The value of a pattern other than ZERO and NAR is its magnitude with its sign. -/
theorem val_eq_magnitude {w : Nat} (hw : 3 ≤ w) (es : Nat) {x : BitVec w} (hz : x ≠ zeroPat w) (hn : x ≠ nar w) :
    val es x = some (if (decompose es x).sign then -(decompose es x).magnitude w es
      else (decompose es x).magnitude w es) := by
  obtain ⟨j, hj⟩ := Nat.exists_eq_add_of_le (decompose_fl_le es x hw)
  have hsig : 1 + ((decompose es x).f : ℚ) / 2 ^ (decompose es x).fl = (decompose es x).sig w / 2 ^ (w - 3) := by
    rw [Dec.sig, Nat.shiftLeft_eq, hj, Nat.add_sub_cancel_left, pow_add]
    push_cast
    field_simp
    ring
  rw [val_finite hn hz rfl, hsig, Dec.magnitude]
  split
  · rw [mul_assoc, neg_one_mul]
  · rw [one_mul]

/-- A pattern whose value is a number other than 0 is neither ZERO nor NAR. -/
theorem finite_of_val_ne_zero {F : Format} {x : Pattern F} {u : ℚ} (hu : val F.ES x = some u) (hu0 : u ≠ 0) :
    x ≠ zeroPat F.W ∧ x ≠ nar F.W := by
  constructor
  · rintro rfl
    rw [val_zero F.ES (zeroPat_ne_nar F), Option.some_inj] at hu
    exact hu0 hu.symm
  · rintro rfl
    rw [val_nar] at hu
    exact absurd hu.symm (Option.some_ne_none u)

/-- A value other than 0 is the magnitude of the pattern's fields with its sign. -/
theorem eq_magnitude_of_val {F : Format} {x : Pattern F} {u : ℚ} (hu : val F.ES x = some u) (hu0 : u ≠ 0) :
    u = if (decompose F.ES x).sign then -(decompose F.ES x).magnitude F.W F.ES
      else (decompose F.ES x).magnitude F.W F.ES := by
  obtain ⟨hz, hn⟩ := finite_of_val_ne_zero hu hu0
  exact Option.some.inj (hu.symm.trans (val_eq_magnitude (by have := F.eight_le_W; omega) F.ES hz hn))

/-- The value of a pattern other than ZERO and NAR is a number other than 0. -/
theorem exists_val_ne_zero {w : Nat} (hw : 3 ≤ w) (es : Nat) {x : BitVec w} (hz : x ≠ zeroPat w) (hn : x ≠ nar w) :
    ∃ u, val es x = some u ∧ u ≠ 0 := by
  refine ⟨_, val_eq_magnitude hw es hz hn, ?_⟩
  have hpos := magnitude_pos w es (decompose es x)
  split
  · exact (neg_neg_of_pos hpos).ne
  · exact hpos.ne'

/-- The sign of a product. -/
theorem signed_mul (s t : Bool) (u v : ℚ) :
    (if s then -u else u) * (if t then -v else v) = if xor s t then -(u * v) else u * v := by
  cases s <;> cases t <;> simp

/-- The sign of a quotient. -/
theorem signed_div (s t : Bool) (u v : ℚ) :
    (if s then -u else u) / (if t then -v else v) = if xor s t then -(u / v) else u / v := by
  cases s <;> cases t <;> simp [neg_div, div_neg]

/-! ### Fraction bits below the last bit that can be kept -/

/-- The rounding step sees `more` and the sticky bit together only (R100). -/
theorem roundApply_accumulates {w : Nat} (p : BitVec (w - 1)) (bnp1 more s : Bool) :
    roundApply p bnp1 more s = roundApply p bnp1 (more || s) false := by
  cases more <;> cases s <;> rfl

/-- Where the regime packs, the last W + 2 fraction bits lie below the round bit: they only set `more` (R80). -/
theorem packFields_add_low {w es g : Nat} (hg : g ≤ w + 2) {k : Int} (h : regA k ≤ w - 2) (e c : Nat) {j : Nat}
    (hj : j < 2 ^ g) :
    packFields w es k e (2 ^ g * c + j) =
      { packFields w es k e (2 ^ g * c) with more := (packFields w es k e (2 ^ g * c)).more || decide (j ≠ 0) } := by
  have hr := regA_pos k
  have hzero : 0 < 2 ^ g := Nat.two_pow_pos g
  obtain ⟨t, ht⟩ : ∃ t, discarded w es k = g + (t + 1) := ⟨regA k + es + w + 1 - g, by rw [discarded]; omega⟩
  obtain ⟨X, hX⟩ : ∃ X, ∀ i, unrounded w es k e (2 ^ g * c + i) = 2 ^ g * X + i :=
    ⟨2 ^ (2 * w - g) * (2 ^ es * regimeField k + e) + c, fun i => by
      rw [unrounded_eq, show 2 ^ (2 * w) = 2 ^ g * 2 ^ (2 * w - g) by rw [← Nat.pow_add]; congr 1; omega]
      ring⟩
  have hX₀ : unrounded w es k e (2 ^ g * c) = 2 ^ g * X + 0 := hX 0
  have hmore : decide (j + 2 ^ g * (X % 2 ^ t) ≠ 0) = (decide (0 + 2 ^ g * (X % 2 ^ t) ≠ 0) || decide (j ≠ 0)) := by
    rw [← Bool.decide_or, decide_eq_decide]
    omega
  rw [packFields_of_fits h, packFields_of_fits h, hX, hX₀, ht, Nat.shiftRight_eq_div_pow, Nat.shiftRight_eq_div_pow,
    append_div_high X _ hj, append_div_high X _ hzero, show g + (t + 1) - 1 = g + t by omega,
    append_testBit_high X t hj, append_testBit_high X t hzero, append_mod_high X t hj, append_mod_high X t hzero, hmore]

/-- The last W + 2 fraction bits can be left to the sticky bit: the encoded pattern depends on their being 0 or not. -/
theorem encodeRound_z_add_low {w es g : Nat} (hw : 2 ≤ w) (hg : g ≤ w + 2) (s : Bool) (k : Int) (e c : Nat) {j : Nat}
    (hj : j < 2 ^ g) (st : Bool) :
    (encodeRound w es s k e (2 ^ g * c + j) st).z = (encodeRound w es s k e (2 ^ g * c) (decide (j ≠ 0) || st)).z := by
  by_cases h : regA k ≤ w - 2
  · rw [encodeRound_eq, encodeRound_eq, encodedMagnitude, encodedMagnitude, packFields_add_low hg h e c hj,
      roundApply_accumulates, roundApply_accumulates _ _ _ (_ || st), Bool.or_assoc]
  · rw [encodeRound_of_saturated hw (not_le.mp h), encodeRound_of_saturated hw (not_le.mp h)]

/-- A remainder moved up by `d` bits is a natural number and a remainder again, both 0 exactly when it is. -/
theorem exists_shifted_remainder (d : Nat) {ρ : ℚ} (h₀ : 0 ≤ ρ) (h₁ : ρ < 1) :
    ∃ (j : Nat) (δ : ℚ), 2 ^ d * ρ = j + δ ∧ j < 2 ^ d ∧ 0 ≤ δ ∧ δ < 1 ∧ (ρ ≠ 0 ↔ j ≠ 0 ∨ δ ≠ 0) := by
  have hnonneg : (0 : ℚ) ≤ 2 ^ d * ρ := by positivity
  have hδ := sub_nonneg.mpr (Nat.floor_le hnonneg)
  refine ⟨⌊2 ^ d * ρ⌋₊, 2 ^ d * ρ - ⌊2 ^ d * ρ⌋₊, (add_sub_cancel _ _).symm, ?_, hδ, ?_, ?_⟩
  · rw [Nat.floor_lt hnonneg]
    push_cast
    exact mul_lt_of_lt_one_right (by positivity) h₁
  · linarith [Nat.lt_floor_add_one ((2 : ℚ) ^ d * ρ)]
  · have hzero : ρ = 0 ↔ 2 ^ d * ρ = 0 := by rw [mul_eq_zero, or_iff_right (by positivity)]
    rw [← not_and_or, Ne, not_iff_not, hzero, ← Nat.cast_eq_zero (R := ℚ),
      ← add_eq_zero_iff_of_nonneg (Nat.cast_nonneg _) hδ, add_sub_cancel]

/-- `encode_round` rounds correctly a number whose fraction has `M` bits, `c`, and a remainder `ρ` below them, when at most
W + 2 zeros follow on the port: the sticky bit stands for the remainder (R107, R131). -/
theorem encodeRound_roundsTo_of_aligned {w es M d : Nat} (hw : 3 ≤ w) (hM : M + d = 2 * w) (hd : d ≤ w + 2) (s : Bool)
    (k : Int) {e c : Nat} (he : e < 2 ^ es) (hc : c < 2 ^ M) {ρ : ℚ} (h₀ : 0 ≤ ρ) (h₁ : ρ < 1) {v : ℚ}
    (hv : v = 2 ^ (k * 2 ^ es + e : Int) * (1 + (c + ρ) / 2 ^ M)) :
    RoundsTo es (if s then -v else v) (encodeRound w es s k e (2 ^ d * c) (decide (ρ ≠ 0))).z := by
  obtain ⟨j, δ, hρ, hj, hδ₀, hδ₁, hsticky⟩ := exists_shifted_remainder d h₀ h₁
  have hff : 2 ^ d * c + j < 2 ^ (2 * w) := by
    rw [← hM, Nat.add_comm M, Nat.pow_add]
    exact Nat.lt_of_lt_of_le (Nat.add_lt_add_left hj _) (by rw [← Nat.mul_succ]; exact Nat.mul_le_mul_left _ hc)
  have hvalue : v = 2 ^ (k * 2 ^ es + e : Int) * (1 + ((2 ^ d * c + j : Nat) + δ) / 2 ^ (2 * w)) := by
    rw [hv, ← hM, pow_add, Nat.cast_add, add_assoc, ← hρ]
    push_cast
    field_simp
  rw [decide_eq_decide.mpr hsticky, Bool.decide_or, ← encodeRound_z_add_low (by omega) hd s k e c hj]
  exact encodeRound_roundsTo hw s k he hff hδ₀ hδ₁ rfl hvalue

/-! ### A number with its leading bit in one of two places -/

/-- The fraction bits of a number whose leading bit has weight 2^N or 2^(N+1), as N + 1 bits below the leading one
(`fracn` in 42_multiply_divide.md R121 and R131). -/
def alignedFraction (N n : Nat) : Nat := if 2 ^ (N + 1) ≤ n then n % 2 ^ (N + 1) else (n % 2 ^ N) <<< 1

/-- The common tail of the two operations: the scale is raised by the place of the leading bit, split into regime value
and exponent, and encoded with the fraction at the top of the port. -/
def encodeLeading (w es : Nat) (s : Bool) (scale : Int) (N n g : Nat) (st : Bool) : Encoded w :=
  encodeRound w es s ((scale + (decide (2 ^ (N + 1) ≤ n)).toNat) / 2 ^ es)
    ((scale + (decide (2 ^ (N + 1) ≤ n)).toNat) % 2 ^ es).toNat (alignedFraction N n <<< g) st

/-- The place `t` of the leading bit, and the bits `c` below it. -/
theorem exists_leading_place {N n : Nat} (hlo : 2 ^ N ≤ n) (hhi : n < 2 ^ (N + 2)) :
    ∃ t c, t ≤ 1 ∧ (decide (2 ^ (N + 1) ≤ n)).toNat = t ∧ n = 2 ^ (N + t) + c ∧ c < 2 ^ (N + t) ∧
      alignedFraction N n = 2 ^ (1 - t) * c := by
  have hone : 2 ^ (N + 1) = 2 ^ N * 2 := Nat.pow_succ 2 N
  have htwo : 2 ^ (N + 2) = 2 ^ (N + 1) * 2 := Nat.pow_succ 2 (N + 1)
  by_cases h : 2 ^ (N + 1) ≤ n
  · refine ⟨1, n - 2 ^ (N + 1), le_rfl, by rw [decide_eq_true h]; rfl, by omega, by omega, ?_⟩
    rw [alignedFraction, if_pos h, Nat.mod_eq_sub_mod h, Nat.mod_eq_of_lt (by omega), Nat.sub_self, Nat.pow_zero,
      Nat.one_mul]
  · refine ⟨0, n - 2 ^ N, Nat.zero_le 1, by rw [decide_eq_false h]; rfl, by rw [Nat.add_zero]; omega,
      by rw [Nat.add_zero]; omega, ?_⟩
    rw [alignedFraction, if_neg h, Nat.mod_eq_sub_mod hlo, Nat.mod_eq_of_lt (by omega), Nat.shiftLeft_eq, Nat.mul_comm]

/-- The exponent that a scale splits off fits its ES bits. -/
theorem exponent_of_scale_lt (es : Nat) (scale : Int) : (scale % 2 ^ es).toNat < 2 ^ es := by
  have hpow : (0 : Int) < 2 ^ es := by positivity
  have hlt : scale % 2 ^ es < ((2 ^ es : Nat) : Int) := by exact_mod_cast Int.emod_lt_of_pos scale hpow
  have hnonneg := Int.emod_nonneg scale hpow.ne'
  omega

/-- A scale is put together again from its regime value and its exponent. -/
theorem scale_eq_fields (es : Nat) (scale : Int) : scale / 2 ^ es * 2 ^ es + ((scale % 2 ^ es).toNat : Int) = scale := by
  rw [Int.toNat_of_nonneg (Int.emod_nonneg scale (by positivity)), Int.ediv_mul_add_emod]

/-- The common tail rounds (n + ρ) / 2^N times its scale correctly. -/
theorem encodeLeading_roundsTo {w es N n g : Nat} (hw : 3 ≤ w) (hN : N + 1 + g = 2 * w) (hg : g ≤ w + 1)
    (hlo : 2 ^ N ≤ n) (hhi : n < 2 ^ (N + 2)) (s : Bool) (scale : Int) {ρ : ℚ} (h₀ : 0 ≤ ρ) (h₁ : ρ < 1) {v : ℚ}
    (hv : v = 2 ^ scale * ((n + ρ) / 2 ^ N)) :
    RoundsTo es (if s then -v else v) (encodeLeading w es s scale N n g (decide (ρ ≠ 0))).z := by
  obtain ⟨t, c, ht, hplace, hn, hc, hfrac⟩ := exists_leading_place hlo hhi
  rw [encodeLeading, hplace, hfrac, Nat.shiftLeft_eq, Nat.mul_right_comm, ← Nat.pow_add]
  refine encodeRound_roundsTo_of_aligned (M := N + t) hw (by omega) (by omega) s _ (exponent_of_scale_lt es _) hc h₀ h₁ ?_
  rw [hv, scale_eq_fields, zpow_add₀ two_ne_zero, zpow_natCast, hn, pow_add]
  push_cast
  rw [pow_add]
  field_simp
  ring

/-- The common tail answers a pattern other than ZERO and NAR, with the sign asked for. -/
theorem encodeLeading_sign {F : Format} {N n g : Nat} (hN : N + 1 + g = 2 * F.W) (hlo : 2 ^ N ≤ n)
    (hhi : n < 2 ^ (N + 2)) (s : Bool) (scale : Int) (st : Bool) :
    (encodeLeading F.W F.ES s scale N n g st).z.getLsbD (F.W - 1) = s := by
  obtain ⟨t, c, ht, -, -, hc, hfrac⟩ := exists_leading_place hlo hhi
  have hff : alignedFraction N n <<< g < 2 ^ (2 * F.W) := by
    rw [hfrac, Nat.shiftLeft_eq, show 2 * F.W = 1 - t + (N + t) + g by omega, Nat.pow_add _ _ g, Nat.pow_add]
    exact Nat.mul_lt_mul_of_pos_right (Nat.mul_lt_mul_of_pos_left hc (Nat.two_pow_pos _)) (Nat.two_pow_pos g)
  obtain ⟨-, -, hsign⟩ := encodedPatternIsFiniteAndNonZero F s _ _ _ st (exponent_of_scale_lt F.ES _) hff
  exact hsign

/-! ### The bounds of the product and the quotient (R79, R121, R131) -/

/-- The product of two significands has its leading bit at 2·FW or one above (R121). -/
theorem sig_mul_sig_bounds {w : Nat} (hw : 3 ≤ w) (es : Nat) (a b : BitVec w) :
    2 ^ (2 * (w - 3)) ≤ (decompose es a).sig w * (decompose es b).sig w ∧
      (decompose es a).sig w * (decompose es b).sig w < 2 ^ (2 * (w - 3) + 2) := by
  obtain ⟨ha, ha'⟩ := sig_decompose_bounds es a hw
  obtain ⟨hb, hb'⟩ := sig_decompose_bounds es b hw
  constructor
  · rw [Nat.two_mul, Nat.pow_add]
    exact Nat.mul_le_mul ha hb
  · rw [show 2 * (w - 3) + 2 = w - 3 + 1 + (w - 3 + 1) by omega, Nat.pow_add]
    exact Nat.mul_lt_mul'' ha' hb'

/-- The quotient of two significands has its leading bit at W − 1, where it is not the only bit, or at W (R131). -/
theorem sig_div_sig_bounds {w : Nat} (hw : 3 ≤ w) (es : Nat) (a b : BitVec w) :
    2 ^ (w - 1) < (decompose es a).sig w * 2 ^ w / (decompose es b).sig w ∧
      (decompose es a).sig w * 2 ^ w / (decompose es b).sig w < 2 ^ (w + 1) := by
  obtain ⟨ha, ha'⟩ := sig_decompose_bounds es a hw
  obtain ⟨hb, hb'⟩ := sig_decompose_bounds es b hw
  have hpos := sig_pos w (decompose es b)
  generalize (decompose es a).sig w = sa at ha ha' ⊢
  generalize (decompose es b).sig w = sb at hb hb' hpos ⊢
  obtain ⟨m, rfl⟩ : ∃ m, w = m + 3 := ⟨w - 3, by omega⟩
  simp only [Nat.add_sub_cancel, show m + 3 - 1 = m + 2 from rfl] at *
  constructor
  · rw [← Nat.succ_le_iff, Nat.le_div_iff_mul_le hpos]
    have hsmall : 2 ^ (m + 1) ≤ 2 ^ (m + 2) := Nat.pow_le_pow_right (by omega) (by omega)
    calc (2 ^ (m + 2) + 1) * sb = 2 ^ (m + 2) * sb + sb := Nat.succ_mul _ _
      _ ≤ 2 ^ (m + 2) * sb + 2 ^ (m + 2) := Nat.add_le_add_left (by omega) _
      _ = 2 ^ (m + 2) * (sb + 1) := (Nat.mul_succ _ _).symm
      _ ≤ 2 ^ (m + 2) * 2 ^ (m + 1) := Nat.mul_le_mul_left _ hb'
      _ = 2 ^ m * 2 ^ (m + 3) := by ring
      _ ≤ sa * 2 ^ (m + 3) := Nat.mul_le_mul_right _ ha
  · rw [Nat.div_lt_iff_lt_mul hpos]
    calc sa * 2 ^ (m + 3) < 2 ^ (m + 1) * 2 ^ (m + 3) := Nat.mul_lt_mul_of_pos_right ha' (Nat.two_pow_pos _)
      _ = 2 ^ (m + 3 + 1) * 2 ^ m := by ring
      _ ≤ 2 ^ (m + 3 + 1) * sb := Nat.mul_le_mul_left _ hb

/-- Settles O46: the bounds of R79, R121 and R131, and for the quotient 2^W ≤ q exactly where 2^W·sb ≤ sa·2^W. -/
theorem productAndQuotientLeadingBit : Obligations.ProductAndQuotientLeadingBit := by
  intro F a b sa sb q
  have hw : 3 ≤ F.W := by have := F.eight_le_W; omega
  obtain ⟨ha, ha'⟩ := sig_decompose_bounds F.ES a hw
  obtain ⟨hprod, hprod'⟩ := sig_mul_sig_bounds hw F.ES a b
  obtain ⟨hq, hq'⟩ := sig_div_sig_bounds hw F.ES a b
  have hpos : 0 < sb := sig_pos F.W (decompose F.ES b)
  refine ⟨ha, ha', hprod, hprod', hq, hq', ?_⟩
  rw [Nat.le_div_iff_mul_le hpos, Nat.mul_comm, Nat.mul_le_mul_right_iff (Nat.two_pow_pos _)]

/-! ### The finite paths end in the common tail -/

/-- The top bit of a number tells whether its weight is reached. -/
theorem testBit_top_eq_decide_le {a n : Nat} (ha : a < 2 ^ (n + 1)) : a.testBit n = decide (2 ^ n ≤ a) := by
  have hpow := Nat.pow_succ 2 n
  rw [testBit_top ha, decide_eq_decide, Nat.div_eq_iff (Nat.two_pow_pos n)]
  omega

/-- The finite path of `posit_mul` encodes the product of the significands at the sum of the scales. -/
theorem mulFinite_eq {w : Nat} (hw : 3 ≤ w) (es : Nat) (a b : BitVec w) :
    mulFinite es a b =
      encodeLeading w es (xor (decompose es a).sign (decompose es b).sign)
        ((decompose es a).scale es + (decompose es b).scale es) (2 * (w - 3))
        ((decompose es a).sig w * (decompose es b).sig w) 5 false := by
  have hcarry := testBit_top_eq_decide_le (sig_mul_sig_bounds hw es a b).2
  simp only [mulFinite, encodeLeading, alignedFraction, hcarry, decide_eq_true_eq]

/-- The finite path of `posit_div` encodes the quotient of the significands at the difference of the scales, with the
remainder in the sticky bit. -/
theorem divFinite_eq {w : Nat} (hw : 1 ≤ w) (es : Nat) (a b : BitVec w) :
    divFinite es a b =
      encodeLeading w es (xor (decompose es a).sign (decompose es b).sign)
        ((decompose es a).scale es - (decompose es b).scale es - 1) (w - 1)
        ((decompose es a).sig w * 2 ^ w / (decompose es b).sig w) w
        (decide ((decompose es a).sig w * 2 ^ w % (decompose es b).sig w ≠ 0)) := by
  simp only [divFinite, encodeLeading, alignedFraction, Nat.sub_add_cancel hw, decide_eq_true_eq, Nat.shiftLeft_eq _ w,
    quotientBits, sub_sub_eq_add_sub, sub_add_eq_add_sub]

end Sys2Proof.Machine
end

section
/-! The multiply and divide family (42_multiply_divide.md), second part: correct rounding of MUL and DIV, their special
operands, and the exact cases, which follow from correct rounding: a number that is the value of a pattern is rounded to
that pattern. -/

namespace Sys2Proof.Machine

/-! ### The special operands (R120, R130) -/

theorem negW_eq_nar_iff {w : Nat} (hw : 1 ≤ w) {x : BitVec w} : negW x = nar w ↔ x = nar w :=
  ⟨fun h => by rw [← negW_negW x, h, negW_nar hw], fun h => by rw [h, negW_nar hw]⟩

theorem negW_eq_zeroPat_iff {w : Nat} {x : BitVec w} : negW x = zeroPat w ↔ x = zeroPat w :=
  ⟨fun h => by rw [← negW_negW x, h, negW_zeroPat], fun h => by rw [h, negW_zeroPat]⟩

section
variable {w : Nat} (es : Nat) {a b : BitVec w}

theorem positMul_of_nar (h : a = nar w ∨ b = nar w) : positMul es a b = nar w := if_pos h

theorem positMul_of_zero (ha : a ≠ nar w) (hb : b ≠ nar w) (h : a = zeroPat w ∨ b = zeroPat w) :
    positMul es a b = zeroPat w := by
  rw [positMul, if_neg (not_or.mpr ⟨ha, hb⟩), if_pos h]

theorem positMul_of_finite (ha : a ≠ zeroPat w ∧ a ≠ nar w) (hb : b ≠ zeroPat w ∧ b ≠ nar w) :
    positMul es a b = (mulFinite es a b).z := by
  rw [positMul, if_neg (not_or.mpr ⟨ha.2, hb.2⟩), if_neg (not_or.mpr ⟨ha.1, hb.1⟩)]

theorem positDiv_of_nar (h : a = nar w ∨ b = nar w ∨ b = zeroPat w) : positDiv es a b = nar w := by
  rw [← or_assoc] at h
  rw [positDiv]
  split
  · rfl
  · exact if_pos (h.resolve_left ‹_›)

theorem positDiv_of_zero (ha : a ≠ nar w) (hb : b ≠ zeroPat w ∧ b ≠ nar w) (h : a = zeroPat w) :
    positDiv es a b = zeroPat w := by
  rw [positDiv, if_neg (not_or.mpr ⟨ha, hb.2⟩), if_neg hb.1, if_pos h]

theorem positDiv_of_finite (ha : a ≠ zeroPat w ∧ a ≠ nar w) (hb : b ≠ zeroPat w ∧ b ≠ nar w) :
    positDiv es a b = (divFinite es a b).z := by
  rw [positDiv, if_neg (not_or.mpr ⟨ha.2, hb.2⟩), if_neg hb.1, if_neg ha.1]

end

/-! ### Correct rounding (R124, R134) -/

/-- Settles O42: the product of the significands has its leading bit in one of two places (`sig_mul_sig_bounds`) and no
remainder, so the common tail rounds it correctly. -/
theorem mulIsCorrectlyRounded : Obligations.MulIsCorrectlyRounded := by
  intro F a b u v hu hv hu0 hv0
  have hW := F.eight_le_W
  obtain ⟨hlo, hhi⟩ := sig_mul_sig_bounds (by omega) F.ES a b
  rw [positMul_of_finite F.ES (finite_of_val_ne_zero hu hu0) (finite_of_val_ne_zero hv hv0), mulFinite_eq (by omega),
    eq_magnitude_of_val hu hu0, eq_magnitude_of_val hv hv0, signed_mul, show false = decide ((0 : ℚ) ≠ 0) by simp]
  refine encodeLeading_roundsTo (by omega) (by omega) (by omega) hlo hhi _ _ le_rfl one_pos ?_
  rw [Dec.magnitude, Dec.magnitude, zpow_add₀ two_ne_zero, two_mul, pow_add]
  push_cast
  field_simp
  ring

/-- The exact quotient of two naturals is the whole quotient and the remainder as a part of the divisor, which is less than
1 and 0 exactly when the remainder is. -/
theorem exact_quotient (n : Nat) {d : Nat} (hd : 0 < d) :
    ((n / d : Nat) : ℚ) + ((n % d : Nat) : ℚ) / d = n / d ∧ ((n % d : Nat) : ℚ) / d < 1 ∧
      (((n % d : Nat) : ℚ) / d ≠ 0 ↔ n % d ≠ 0) := by
  have hpos : (0 : ℚ) < d := by exact_mod_cast hd
  refine ⟨?_, ?_, ?_⟩
  · rw [eq_div_iff hpos.ne', add_mul, div_mul_cancel₀ _ hpos.ne']
    exact_mod_cast Nat.div_add_mod' n d
  · rw [div_lt_one hpos]
    exact_mod_cast Nat.mod_lt n hd
  · rw [div_ne_zero_iff, and_iff_left hpos.ne', Nat.cast_ne_zero]

/-- Settles O47: the quotient of the significands has its leading bit in one of two places (`sig_div_sig_bounds`), and its
remainder, as a part of the divisor, is what the sticky bit stands for (`exact_quotient`). -/
theorem divIsCorrectlyRounded : Obligations.DivIsCorrectlyRounded := by
  intro F a b u v hu hv hu0 hv0
  have hW := F.eight_le_W
  have hplaces : F.W + 1 = F.W - 1 + 2 := by omega
  have hsb := sig_pos F.W (decompose F.ES b)
  obtain ⟨hlo, hhi⟩ := sig_div_sig_bounds (by omega) F.ES a b
  rw [hplaces] at hhi
  obtain ⟨hquot, hlt, hsticky⟩ := exact_quotient ((decompose F.ES a).sig F.W * 2 ^ F.W) hsb
  rw [positDiv_of_finite F.ES (finite_of_val_ne_zero hu hu0) (finite_of_val_ne_zero hv hv0), divFinite_eq (by omega)]
  refine ⟨?_, encodeLeading_sign (by omega) hlo.le hhi _ _ _⟩
  rw [eq_magnitude_of_val hu hu0, eq_magnitude_of_val hv hv0, signed_div, ← decide_eq_decide.mpr hsticky]
  refine encodeLeading_roundsTo (by omega) (by omega) (by omega) hlo.le hhi _ _ (by positivity) hlt ?_
  have hpow : (2 : ℚ) ^ F.W = 2 * 2 ^ (F.W - 1) := by exact_mod_cast two_pow_pred_double (show 1 ≤ F.W by omega)
  rw [hquot, Dec.magnitude, Dec.magnitude, zpow_sub₀ two_ne_zero, zpow_sub₀ two_ne_zero, zpow_one, Nat.cast_mul,
    Nat.cast_pow, Nat.cast_ofNat, hpow]
  field_simp

/-! ### Numbers that are values of patterns -/

/-- The value of a positive pattern rounds to that pattern: it lies below the tie point above it. -/
theorem RoundsMagnitude.eq_of_val {w es : Nat} (hw : 3 ≤ w) {x z : BitVec w} (hpos : 0 < x.toNat)
    (hlt : x.toNat < 2 ^ (w - 1)) {v : ℚ} (hx : val es x = some v) (h : RoundsMagnitude es v z) : z = x := by
  obtain ⟨-, htop, hbetween⟩ := h
  by_cases hmax : x = maxpos w
  · subst hmax
    exact htop v hx le_rfl
  have hdouble := two_pow_pred_double (w := w) (by omega)
  have hne : x.toNat ≠ 2 ^ (w - 1) - 1 := fun h =>
    hmax (BitVec.eq_of_toNat_eq (h.trans (maxpos_toNat (by omega)).symm))
  have hsucc : (x + 1).toNat = x.toNat + 1 := by
    have hone : (1 : BitVec w).toNat = 1 := BitVec.toNat_one (by omega)
    rw [BitVec.toNat_add_of_lt (by omega), hone]
  have hmid : (BitVec.ofNat (w + 1) (2 * x.toNat + 1)).toNat = 2 * x.toNat + 1 := by
    rw [BitVec.toNat_ofNat, Nat.mod_eq_of_lt (by rw [Nat.pow_succ]; omega)]
  obtain rfl : valueAt (patternPoint es x) = v :=
    Option.some.inj ((val_eq_valueAt (by omega) es hpos hlt).symm.trans hx)
  have hplace := placeAt_patternPoint hw es hpos hlt
  have hmid_val := val_eq_valueAt (by omega) es (x := BitVec.ofNat (w + 1) (2 * x.toNat + 1)) (by omega)
    (by rw [hmid, Nat.add_sub_cancel]; omega)
  have hhi_val := val_eq_valueAt (by omega) es (x := x + 1) (by omega) (by omega)
  refine (hbetween x hpos (by omega) _ _ _ hx hmid_val hhi_val le_rfl ?_).1 ?_
  · rw [(compare_val hw (by omega) (by omega) hhi_val _).1, hplace, hsucc, Nat.cast_succ]
    linarith
  · rw [← not_le, (compare_val (by omega) (by omega) (by rw [hmid, Nat.add_sub_cancel]; omega) hmid_val _).2,
      placeAt_succ (by omega), hplace, hmid]
    push_cast
    linarith

/-- The value of a pattern other than ZERO and NAR rounds to that pattern. -/
theorem RoundsTo.eq_of_val {w es : Nat} (hw : 3 ≤ w) {x z : BitVec w} (hz : x ≠ zeroPat w) (hn : x ≠ nar w) {v : ℚ}
    (hx : val es x = some v) (h : RoundsTo es v z) : z = x := by
  obtain ⟨s, y, hpos, hlt, rfl, -⟩ := exists_magnitude (by omega) es hz hn
  obtain ⟨hyz, hyn, hysign⟩ := positive_pattern (by omega) hpos hlt
  have hmag := magnitude_pos w es (decompose es y)
  have hy : val es y = some ((decompose es y).magnitude w es) := by
    rw [val_eq_magnitude hw es hyz hyn, if_neg]
    exact fun h => Bool.false_ne_true (hysign.symm.trans h)
  cases s with
  | false =>
    obtain rfl := Option.some.inj (hy.symm.trans hx)
    exact (h.1 hmag).eq_of_val hw hpos hlt hy
  | true =>
    obtain rfl := Option.some.inj ((val_negW (by omega) es hyz hyn hy).symm.trans hx)
    have hround := h.2 (neg_neg_of_pos hmag)
    rw [neg_neg] at hround
    rw [if_pos rfl, ← hround.eq_of_val hw hpos hlt hy, negW_negW]

section
variable {F : Format} {a b x : Pattern F} {u v : ℚ} (hu : val F.ES a = some u) (hv : val F.ES b = some v) (hu0 : u ≠ 0)
  (hv0 : v ≠ 0)
include hu hv hu0 hv0

/-- A product that is the value of a pattern is that pattern. -/
theorem positMul_eq_of_val (hx : val F.ES x = some (u * v)) : positMul F.ES a b = x := by
  obtain ⟨hz, hn⟩ := finite_of_val_ne_zero hx (mul_ne_zero hu0 hv0)
  exact (mulIsCorrectlyRounded F a b u v hu hv hu0 hv0).eq_of_val (by have := F.eight_le_W; omega) hz hn hx

/-- A quotient that is the value of a pattern is that pattern. -/
theorem positDiv_eq_of_val (hx : val F.ES x = some (u / v)) : positDiv F.ES a b = x := by
  obtain ⟨hz, hn⟩ := finite_of_val_ne_zero hx (div_ne_zero hu0 hv0)
  exact (divIsCorrectlyRounded F a b u v hu hv hu0 hv0).1.eq_of_val (by have := F.eight_le_W; omega) hz hn hx

end

/-- The values of ONE and −ONE. -/
theorem val_one_and_negOne (F : Format) : val F.ES (one F.W) = some 1 ∧ val F.ES (negW (one F.W)) = some (-1) := by
  have hW := F.eight_le_W
  have hone := val_one_pattern (w := F.W) (by omega) F.ES
  obtain ⟨hz, hn, -⟩ := one_positive (w := F.W) (by omega)
  exact ⟨hone, val_negW (by omega) F.ES hz hn hone⟩

/-! ### The laws of MUL (R124) -/

/-- Settles O39: the special cases are symmetric, and the finite path combines signs, scales and significands by
commutative operations. -/
theorem mulIsCommutative : Obligations.MulIsCommutative := by
  intro F a b
  have hfinite : mulFinite F.ES a b = mulFinite F.ES b a := by
    have hw : 3 ≤ F.W := by have := F.eight_le_W; omega
    rw [mulFinite_eq hw, mulFinite_eq hw, Bool.xor_comm, add_comm (Dec.scale _ _), Nat.mul_comm (Dec.sig _ _)]
  simp only [positMul, hfinite, or_comm (a := a = nar F.W), or_comm (a := a = zeroPat F.W)]

theorem encodeRound_not_z {w es : Nat} (s : Bool) (k : Int) (e ff : Nat) (st : Bool) :
    (encodeRound w es (!s) k e ff st).z = negW (encodeRound w es s k e ff st).z := by
  cases s with
  | false => rfl
  | true => exact (negW_negW _).symm

/-- Negating an operand of the finite path negates its result: the sign alone changes. -/
theorem mulFinite_negW_z {w : Nat} (hw : 3 ≤ w) (es : Nat) {a : BitVec w} (b : BitVec w) (hz : a ≠ zeroPat w)
    (hn : a ≠ nar w) : (mulFinite es (negW a) b).z = negW (mulFinite es a b).z := by
  rw [mulFinite_eq hw, mulFinite_eq hw, decompose_negW (by omega) es hz hn, encodeLeading, encodeLeading,
    ← encodeRound_not_z, ← Bool.not_xor]
  rfl

theorem positMul_negW {w : Nat} (hw : 3 ≤ w) (es : Nat) (a b : BitVec w) :
    positMul es (negW a) b = negW (positMul es a b) := by
  simp only [positMul, negW_eq_nar_iff (show 1 ≤ w by omega), negW_eq_zeroPat_iff, apply_ite negW,
    negW_nar (show 1 ≤ w by omega), negW_zeroPat]
  refine ite_congr rfl (fun _ => rfl) fun hn => ite_congr rfl (fun _ => rfl) fun hz => ?_
  exact mulFinite_negW_z hw es b (not_or.mp hz).1 (not_or.mp hn).1

/-- Settles O41: negation by `positMul_negW`, and the sign of a finite product by the common tail. -/
theorem mulObeysTheSignLaws : Obligations.MulObeysTheSignLaws := by
  intro F a b
  have hw : 3 ≤ F.W := by have := F.eight_le_W; omega
  refine ⟨positMul_negW hw F.ES a b, fun haz han hbz hbn => ?_⟩
  obtain ⟨hlo, hhi⟩ := sig_mul_sig_bounds hw F.ES a b
  rw [positMul_of_finite F.ES ⟨haz, han⟩ ⟨hbz, hbn⟩, mulFinite_eq hw]
  exact encodeLeading_sign (by omega) hlo hhi _ _ _

/-- Settles O40: a finite operand times 1 is its own value (`positMul_eq_of_val`), and −ONE follows by the sign law. -/
theorem mulByOneIsExact : Obligations.MulByOneIsExact := by
  intro F a
  have hw : 3 ≤ F.W := by have := F.eight_le_W; omega
  have hone : positMul F.ES a (one F.W) = a := by
    by_cases hn : a = nar F.W
    · rw [positMul_of_nar F.ES (.inl hn), hn]
    by_cases hz : a = zeroPat F.W
    · rw [positMul_of_zero F.ES hn (one_positive (by omega)).2.1 (.inl hz), hz]
    obtain ⟨u, hu, hu0⟩ := exists_val_ne_zero hw F.ES hz hn
    exact positMul_eq_of_val hu (val_one_and_negOne F).1 hu0 one_ne_zero (by rw [mul_one, hu])
  exact ⟨hone, by rw [mulIsCommutative, positMul_negW hw, mulIsCommutative, hone]⟩

/-! ### The laws of DIV (R134) -/

/-- Settles O45: the quotients of a finite operand are its value and the negation of it (`positDiv_eq_of_val`), and ZERO and
NAR, their own negations, are what they divide to. -/
theorem divByOneIsExact : Obligations.DivByOneIsExact := by
  intro F a
  have hw : 3 ≤ F.W := by have := F.eight_le_W; omega
  obtain ⟨hone, hneg⟩ := val_one_and_negOne F
  by_cases hn : a = nar F.W
  · rw [positDiv_of_nar F.ES (.inl hn), positDiv_of_nar F.ES (.inl hn), hn, negW_nar (by omega)]
    exact ⟨rfl, rfl⟩
  by_cases hz : a = zeroPat F.W
  · rw [positDiv_of_zero F.ES hn (finite_of_val_ne_zero hone one_ne_zero) hz,
      positDiv_of_zero F.ES hn (finite_of_val_ne_zero hneg (neg_ne_zero.mpr one_ne_zero)) hz, hz, negW_zeroPat]
    exact ⟨rfl, rfl⟩
  obtain ⟨u, hu, hu0⟩ := exists_val_ne_zero hw F.ES hz hn
  constructor
  · exact positDiv_eq_of_val hu hone hu0 one_ne_zero (by rw [div_one, hu])
  · exact positDiv_eq_of_val hu hneg hu0 (neg_ne_zero.mpr one_ne_zero)
      (by rw [div_neg, div_one, val_negW (by omega) F.ES hz hn hu])

/-- Settles O44: the quotients are 1 and −1, the values of ONE and −ONE. -/
theorem selfDivisionIsOne : Obligations.SelfDivisionIsOne := by
  intro F p hz hn
  have hw : 3 ≤ F.W := by have := F.eight_le_W; omega
  obtain ⟨u, hu, hu0⟩ := exists_val_ne_zero hw F.ES hz hn
  obtain ⟨hone, hneg⟩ := val_one_and_negOne F
  constructor
  · exact positDiv_eq_of_val hu hu hu0 hu0 (by rw [hone, div_self hu0])
  · exact positDiv_eq_of_val hu (val_negW (by omega) F.ES hz hn hu) hu0 (neg_ne_zero.mpr hu0)
      (by rw [hneg, div_neg, div_self hu0])

/-! ### What MUL and DIV present (R122, R132) -/

theorem exec_mul_port (s : State) (a b : Pattern s.fmt) :
    exec (.mul a.toNat b.toNat) s = s.answer { Response.start s.fmt with z := positMul s.fmt.ES a b } := by
  show execMul a.toNat b.toNat s = _
  rw [execMul, patternOperand_toNat, patternOperand_toNat]

theorem exec_div_port (s : State) (a b : Pattern s.fmt) :
    exec (.div a.toNat b.toNat) s = s.answer { Response.start s.fmt with z := positDiv s.fmt.ES a b } := by
  show execDiv a.toNat b.toNat s = _
  rw [execDiv, patternOperand_toNat, patternOperand_toNat]

/-- Settles O38: the answer is `exec_mul_port`, and the special operands are the first two branches of `posit_mul`. -/
theorem mulPresentsTheProduct : Obligations.MulPresentsTheProduct := fun s a b =>
  ⟨positMul s.fmt.ES a b, exec_mul_port s a b, rfl, positMul_of_nar s.fmt.ES, positMul_of_zero s.fmt.ES⟩

/-- Settles O43: the answer is `exec_div_port`, and the special operands are the first three branches of `posit_div`. -/
theorem divPresentsTheQuotient : Obligations.DivPresentsTheQuotient := by
  intro s a b
  refine ⟨positDiv s.fmt.ES a b, exec_div_port s a b, rfl, positDiv_of_nar s.fmt.ES, fun ha hn hz => ?_⟩
  exact positDiv_of_zero s.fmt.ES (ha ▸ zeroPat_ne_nar s.fmt) ⟨hz, hn⟩ ha

end Sys2Proof.Machine
end

section
/-! The comparator (43_comparator.md): the order of the patterns as signed numbers, as signs and magnitudes, as offset-binary
numbers and as exact values.

`val` is strictly increasing in the signed number of a pattern (`val_lt_of_toInt_lt`): from ZERO up by the place of a
positive pattern, below ZERO by negation. -/

namespace Sys2Proof.Machine

/-! ### The relations as propositions -/

@[simp] theorem orderLe_iff {w : Nat} {a b : BitVec w} : orderLe a b = true ↔ a.toInt ≤ b.toInt := decide_eq_true_iff

@[simp] theorem orderLt_iff {w : Nat} {a b : BitVec w} : orderLt a b = true ↔ a.toInt < b.toInt := decide_eq_true_iff

@[simp] theorem equalNotNar_iff {w : Nat} {a b : BitVec w} : equalNotNar a b = true ↔ a = b ∧ a ≠ nar w := by
  rw [equalNotNar, Bool.and_eq_true, decide_eq_true_iff, decide_eq_true_iff]

/-! ### Patterns as signed numbers -/

/-- NAR is the least signed number of its width. -/
theorem nar_eq_intMin {w : Nat} (hw : 1 ≤ w) : nar w = BitVec.intMin w :=
  BitVec.eq_of_toNat_eq ((nar_toNat hw).trans (BitVec.toNat_intMin_of_pos hw).symm)

@[simp] theorem zeroPat_toInt (w : Nat) : (zeroPat w).toInt = 0 := BitVec.toInt_zero

theorem negW_toInt {w : Nat} (hw : 1 ≤ w) {x : BitVec w} (hn : x ≠ nar w) : (negW x).toInt = -x.toInt := by
  rw [negW_eq_neg, BitVec.toInt_neg_of_ne_intMin (nar_eq_intMin hw ▸ hn)]

/-- The patterns whose sign bit is 0, as signed and as unsigned numbers. -/
theorem toNat_of_toInt_nonneg {w : Nat} {x : BitVec w} (h : 0 ≤ x.toInt) :
    (x.toNat : Int) = x.toInt ∧ x.toNat < 2 ^ (w - 1) := by
  have hlt := x.toInt_lt
  have heq : x.toInt = x.toNat := BitVec.toInt_eq_toNat_of_lt (BitVec.toInt_pos_iff.mp h)
  rw [heq] at hlt
  exact ⟨heq.symm, by exact_mod_cast hlt⟩

/-- A pattern is its magnitude with its sign (R158). -/
theorem toInt_of_sign_clear {w : Nat} {x : BitVec w} (h : x.getLsbD (w - 1) = false) : x.toInt = x.toNat :=
  BitVec.toInt_eq_toNat_of_msb (x.msb_eq_getLsbD_last.trans h)

theorem toInt_of_sign_set {w : Nat} {x : BitVec w} (h : x.getLsbD (w - 1) = true) :
    x.toInt < 0 ∧ x.toInt = -((negW x).toNat : Int) := by
  have hmsb := x.msb_eq_getLsbD_last.trans h
  rw [negW_eq_neg]
  exact ⟨BitVec.toInt_neg_of_msb_true hmsb, BitVec.toInt_eq_neg_toNat_neg_of_msb_true hmsb⟩

/-- Flipping the sign bit adds 2^(W−1) to the signed number: the offset-binary form (R158). -/
theorem xor_nar_toNat {w : Nat} (hw : 1 ≤ w) (x : BitVec w) :
    ((x ^^^ nar w).toNat : Int) = x.toInt + (2 ^ (w - 1) : Nat) := by
  have hpow := Nat.two_pow_pos (w - 1)
  have hdouble := two_pow_pred_double hw
  have hlt := x.isLt
  have hlow : (x.toNat ^^^ 2 ^ (w - 1)) % 2 ^ (w - 1) = x.toNat % 2 ^ (w - 1) := by
    rw [Nat.xor_mod_two_pow, Nat.mod_self, Nat.xor_zero]
  have hhigh : (x.toNat ^^^ 2 ^ (w - 1)) / 2 ^ (w - 1) = x.toNat / 2 ^ (w - 1) ^^^ 1 := by
    rw [Nat.xor_div_two_pow, Nat.div_self hpow]
  rw [BitVec.toNat_xor, nar_toNat hw, BitVec.toInt_eq_msb_cond, BitVec.msb_eq_decide,
    ← Nat.div_add_mod (x.toNat ^^^ 2 ^ (w - 1)) (2 ^ (w - 1)), hlow, hhigh]
  by_cases h : 2 ^ (w - 1) ≤ x.toNat
  · have hquot : x.toNat / 2 ^ (w - 1) = 1 := Nat.div_eq_of_lt_le (by omega) (by omega)
    have hrem := Nat.div_add_mod x.toNat (2 ^ (w - 1))
    rw [hquot] at hrem
    rw [if_pos (decide_eq_true h), hquot, Nat.xor_self]
    omega
  · rw [if_neg (by simpa using h), Nat.div_eq_of_lt (by omega), Nat.mod_eq_of_lt (by omega), Nat.zero_xor]
    omega

/-! ### The order of the values (R159) -/

theorem ne_nar_of_val {w es : Nat} {x : BitVec w} {u : ℚ} (hu : val es x = some u) : x ≠ nar w := by
  rintro rfl
  rw [val_nar] at hu
  exact Option.some_ne_none u hu.symm

/-- Negation negates the value of every pattern that has one. -/
theorem val_negW_of_val {F : Format} {x : Pattern F} {u : ℚ} (hu : val F.ES x = some u) :
    val F.ES (negW x) = some (-u) := by
  by_cases hz : x = zeroPat F.W
  · subst hz
    have hzero := val_zero F.ES (zeroPat_ne_nar F)
    obtain rfl := Option.some.inj (hzero.symm.trans hu)
    rw [negW_zeroPat, hzero, neg_zero]
  · exact val_negW (by have := F.eight_le_W; omega) F.ES hz (ne_nar_of_val hu) hu

/-- The value of a positive pattern is positive. -/
theorem val_pos {w es : Nat} (hw : 3 ≤ w) {x : BitVec w} (hpos : 0 < x.toNat) (hlt : x.toNat < 2 ^ (w - 1)) {u : ℚ}
    (hu : val es x = some u) : 0 < u := by
  obtain ⟨hz, hn, hs⟩ := positive_pattern (by omega) hpos hlt
  have hsign : (decompose es x).sign = false := hs
  rw [val_eq_magnitude hw es hz hn, hsign, if_neg Bool.false_ne_true, Option.some_inj] at hu
  exact hu ▸ magnitude_pos w es _

section
variable {F : Format} {a b : Pattern F} {u v : ℚ} (hu : val F.ES a = some u) (hv : val F.ES b = some v)
include hu hv

/-- From ZERO up, the value grows with the pattern: so does its place, and the order of values is the order of places. -/
theorem val_lt_of_nonneg (ha : 0 ≤ a.toInt) (h : a.toInt < b.toInt) : u < v := by
  have hW := F.eight_le_W
  obtain ⟨hanat, halt⟩ := toNat_of_toInt_nonneg ha
  obtain ⟨hbnat, hblt⟩ := toNat_of_toInt_nonneg (ha.trans h.le)
  by_cases hz : a = zeroPat F.W
  · rw [hz, val_zero F.ES (zeroPat_ne_nar F), Option.some_inj] at hu
    exact hu ▸ val_pos (by omega) (by omega) hblt hv
  · have hapos : 0 < a.toNat := Nat.pos_of_ne_zero fun h0 => hz (BitVec.eq_of_toNat_eq (h0.trans (zeroPat_toNat _).symm))
    have hab : (a.toNat : ℚ) < b.toNat := by exact_mod_cast (show a.toNat < b.toNat by omega)
    obtain rfl := Option.some.inj ((val_eq_valueAt (by omega) F.ES (by omega) hblt).symm.trans hv)
    rw [← not_le, (compare_val (by omega) hapos halt hu _).1, placeAt_patternPoint (by omega) F.ES (by omega) hblt, not_le]
    exact hab

/-- Up to ZERO, negation turns the order of the patterns and of the values around. -/
theorem val_lt_of_nonpos (hb : b.toInt ≤ 0) (h : a.toInt < b.toInt) : u < v := by
  have hw : 1 ≤ F.W := by have := F.eight_le_W; omega
  have ha' := negW_toInt hw (ne_nar_of_val hu)
  have hb' := negW_toInt hw (ne_nar_of_val hv)
  exact neg_lt_neg_iff.mp (val_lt_of_nonneg (val_negW_of_val hv) (val_negW_of_val hu) (by omega) (by omega))

/-- `val` is strictly increasing in the signed number of a pattern: past ZERO, whose value lies between. -/
theorem val_lt_of_toInt_lt (h : a.toInt < b.toInt) : u < v := by
  have hzero := val_zero F.ES (zeroPat_ne_nar F)
  have hzeroInt := zeroPat_toInt F.W
  rcases le_or_gt 0 a.toInt with ha | ha
  · exact val_lt_of_nonneg hu hv ha h
  rcases le_or_gt b.toInt 0 with hb | hb
  · exact val_lt_of_nonpos hu hv hb h
  · exact (val_lt_of_nonpos hu hzero (by omega) (by omega)).trans (val_lt_of_nonneg hzero hv (by omega) (by omega))

theorem val_le_iff : u ≤ v ↔ a.toInt ≤ b.toInt := by
  constructor
  · intro h
    exact not_lt.mp fun hlt => absurd (val_lt_of_toInt_lt hv hu hlt) (not_lt.mpr h)
  · intro h
    rcases h.eq_or_lt with heq | hlt
    · obtain rfl := BitVec.toInt_inj.mp heq
      exact (Option.some.inj (hu.symm.trans hv)).le
    · exact (val_lt_of_toInt_lt hu hv hlt).le

end

/-- Settles O52: `val` is strictly increasing in the signed number (`val_lt_of_toInt_lt`), so the two orders agree
(`val_le_iff`), and with them their strict parts and their equalities. -/
theorem orderIsTheOrderOfValues : Obligations.OrderIsTheOrderOfValues := by
  intro F a b u v hu hv
  have hle := val_le_iff hu hv
  have hge := val_le_iff hv hu
  refine ⟨orderLe_iff.trans hle.symm, ?_, ?_⟩
  · rw [orderLt_iff, ← not_le, ← hge, not_le]
  · rw [equalNotNar_iff, and_iff_left (ne_nar_of_val hu), ← BitVec.toInt_inj, le_antisymm_iff, le_antisymm_iff, hle, hge]

/-! ### The relations of the flags (R152, R154, R156) -/

/-- Settles O49: NAR is the least signed number, and the antisymmetry of the order makes it the only least one. -/
theorem narIsUnequalAndLeast : Obligations.NarIsUnequalAndLeast := by
  intro F x
  have hleast : (nar F.W).toInt ≤ x.toInt := by
    rw [nar_eq_intMin (by have := F.eight_le_W; omega)]
    exact BitVec.toInt_intMin_le x
  simp only [← Bool.not_eq_true, orderLe_iff, equalNotNar_iff]
  refine ⟨fun h => h.2 rfl, fun h => h.2 h.1, hleast, fun hn hle => ?_, trivial, zeroPat_ne_nar F⟩
  exact hn (BitVec.toInt_inj.mp (hle.antisymm hleast))

/-- Settles O50: the signed numbers are in linear order, and two patterns with one signed number are one pattern. -/
theorem flagsFitTogether : Obligations.FlagsFitTogether := by
  intro F a b c
  have hle : orderLe a b = true ↔ orderLt a b = true ∨ a = b := by
    rw [orderLe_iff, orderLt_iff, le_iff_lt_or_eq, BitVec.toInt_inj]
  refine ⟨?_, ?_, fun hab hba => ?_, fun hab hbc => ?_, ?_, fun ha _ => ?_, fun hne => ?_⟩
  · rw [Bool.eq_iff_iff, Bool.not_eq_true', ← Bool.not_eq_true, orderLt_iff, orderLe_iff, not_le]
  · rw [Bool.eq_iff_iff, Bool.or_eq_true, decide_eq_true_iff, hle]
  · exact BitVec.toInt_inj.mp ((orderLe_iff.mp hab).antisymm (orderLe_iff.mp hba))
  · exact orderLe_iff.mpr ((orderLe_iff.mp hab).trans (orderLe_iff.mp hbc))
  · rw [orderLe_iff, orderLe_iff]
    exact le_total _ _
  · rw [Bool.eq_iff_iff, Bool.or_eq_true, equalNotNar_iff, and_iff_left ha, hle]
  · have hneInt : a.toInt ≠ b.toInt := fun h => hne (BitVec.toInt_inj.mp h)
    rw [Bool.eq_iff_iff, Bool.not_eq_true', ← Bool.not_eq_true, orderLt_iff, orderLt_iff, not_lt, hneInt.le_iff_lt]

/-! ### The sign-magnitude and the offset-binary comparator (R158) -/

/-- Settles O51: a pattern is its magnitude with its sign (`toInt_of_sign_clear`, `toInt_of_sign_set`), and with its sign bit
flipped it is its signed number moved by a constant (`xor_nar_toNat`). -/
theorem signMagnitudeFormIsTheSameOrder : Obligations.SignMagnitudeFormIsTheSameOrder := by
  intro F a b
  dsimp only
  rw [orderLe_iff]
  constructor
  · rcases Bool.eq_false_or_eq_true (a.getLsbD (F.W - 1)) with hsa | hsa <;>
      rcases Bool.eq_false_or_eq_true (b.getLsbD (F.W - 1)) with hsb | hsb
    · rw [(toInt_of_sign_set hsa).2, (toInt_of_sign_set hsb).2]
      simp [hsa, hsb]
    · have ha := (toInt_of_sign_set hsa).1
      have hb := toInt_of_sign_clear hsb
      exact iff_of_true (by omega) (.inl ⟨hsa, hsb⟩)
    · have ha := toInt_of_sign_clear hsa
      have hb := (toInt_of_sign_set hsb).1
      simp only [hsa, hsb, Bool.false_eq_true, Bool.true_eq_false, false_and, and_false, or_self, iff_false]
      omega
    · rw [toInt_of_sign_clear hsa, toInt_of_sign_clear hsb]
      simp [hsa, hsb]
  · have hw : 1 ≤ F.W := by have := F.eight_le_W; omega
    rw [← Int.ofNat_le, xor_nar_toNat hw, xor_nar_toNat hw, Int.add_le_add_iff_right]

/-! ### What the comparisons present (R151, R153, R155, R157) -/

theorem exec_eq_port (s : State) (a b : Pattern s.fmt) :
    exec (.eq a.toNat b.toNat) s = s.answer { Response.start s.fmt with flag := equalNotNar a b } := by
  show execEq a.toNat b.toNat s = _
  rw [execEq, patternOperand_toNat, patternOperand_toNat]

theorem exec_le_port (s : State) (a b : Pattern s.fmt) :
    exec (.le a.toNat b.toNat) s = s.answer { Response.start s.fmt with flag := orderLe a b } := by
  show execLe a.toNat b.toNat s = _
  rw [execLe, patternOperand_toNat, patternOperand_toNat]

theorem exec_lt_port (s : State) (a b : Pattern s.fmt) :
    exec (.lt a.toNat b.toNat) s = s.answer { Response.start s.fmt with flag := orderLt a b } := by
  show execLt a.toNat b.toNat s = _
  rw [execLt, patternOperand_toNat, patternOperand_toNat]

theorem exec_gt_port (s : State) (a b : Pattern s.fmt) :
    exec (.gt a.toNat b.toNat) s = s.answer { Response.start s.fmt with flag := orderLt b a } := by
  show execGt a.toNat b.toNat s = _
  rw [execGt, patternOperand_toNat, patternOperand_toNat]

/-- Settles O48: the flag is the relation that the answer names, written out. -/
theorem comparisonsWriteTheirFlag : Obligations.ComparisonsWriteTheirFlag := by
  intro s a b
  refine ⟨?_, exec_le_port s a b, exec_lt_port s a b, exec_gt_port s a b⟩
  rw [exec_eq_port, equalNotNar, ← Bool.decide_and]
  rfl

end Sys2Proof.Machine
end

section
/-! The exceptions family (60_exceptions.md): the one refusal, the operations that raise nothing, and the requests whose
result is NaR.

A rounded magnitude stays below 2^(W−1), the number of NAR (`roundApply_z_lt`), and so do a packed body and a negated
magnitude; NaR is therefore left to the special operands of MUL and DIV and to the operands that PASS and NEG hand on. -/

namespace Sys2Proof.Machine

/-! ### The reserved codes (R176) -/

theorem exec_reserved {i : Instr} (h : i = .reserved7 ∨ i = .reservedE ∨ i = .reservedF) (s : State) :
    exec i s = s.answer (Response.refused s.fmt) := by
  rcases h with rfl | rfl | rfl <;> rfl

theorem decode_of_reserved_op {F : Format} {r : Request F} (h : r.op = 0x7 ∨ r.op = 0xE ∨ r.op = 0xF) :
    decode r = .reserved7 ∨ decode r = .reservedE ∨ decode r = .reservedF := by
  rcases h with hop | hop | hop <;> simp [decode, hop]

/-- Settles O15: a reserved code decodes to a reserved instruction (`decode_of_reserved_op`), and each of the three
answers with the refused response (`exec_reserved`). -/
theorem reservedCodesAreRefusedInBand : Obligations.ReservedCodesAreRefusedInBand := by
  refine ⟨fun s i hi => exec_reserved hi s, fun F x rest u n hx hop => ?_⟩
  exact (step_of_request hx).trans (exec_reserved (decode_of_reserved_op hop) ⟨F, rest, u, n⟩)

/-! ### The legal operations (R170) -/

/-- Settles O16: the answer of every legal operation is `Response.start` with result ports written, and none of these is
`err` or `ecode`. -/
theorem legalOperationsRaiseNothing : Obligations.LegalOperationsRaiseNothing := by
  rintro s i ⟨h7, hE, hF⟩
  cases i with
  | pass a | neg a | rlen a | dec a | pack k e ff | round p bnp1 more sticky | enc sign k e ff sticky | mul a b
  | div a b | eq a b | le a b | lt a b | gt a b => exact ⟨_, rfl, rfl, rfl, rfl⟩
  | reserved7 => exact absurd rfl h7
  | reservedE => exact absurd rfl hE
  | reservedF => exact absurd rfl hF

/-! ### Patterns that are not NAR -/

theorem ne_nar_of_lt {w : Nat} (hw : 1 ≤ w) {x : BitVec w} (h : x.toNat < 2 ^ (w - 1)) : x ≠ nar w := by
  rintro rfl
  exact h.ne (nar_toNat hw)

theorem setWidth_body_ne_nar {w : Nat} (hw : 1 ≤ w) (p : BitVec (w - 1)) : p.setWidth w ≠ nar w :=
  ne_nar_of_lt hw ((setWidth_body_toNat p).trans_lt p.isLt)

theorem roundApply_z_lt {w : Nat} (hw : 1 ≤ w) (p : BitVec (w - 1)) (bnp1 more s : Bool) :
    (roundApply p bnp1 more s).z.toNat < 2 ^ (w - 1) := by
  have hpow := Nat.two_pow_pos (w - 1)
  rw [roundApply_z_toNat hw]
  omega

theorem roundApply_z_ne_nar {w : Nat} (hw : 1 ≤ w) (p : BitVec (w - 1)) (bnp1 more s : Bool) :
    (roundApply p bnp1 more s).z ≠ nar w :=
  ne_nar_of_lt hw (roundApply_z_lt hw p bnp1 more s)

/-- The common tail never gives NAR, since neither a rounded magnitude nor its negation is NAR. -/
theorem encodeRound_z_ne_nar {w : Nat} (hw : 1 ≤ w) (es : Nat) (s : Bool) (k : Int) (e ff : Nat) (st : Bool) :
    (encodeRound w es s k e ff st).z ≠ nar w := by
  have hmag : (encodedMagnitude w es k e ff st).z ≠ nar w := roundApply_z_ne_nar hw _ _ _ _
  rw [encodeRound_eq]
  cases s with
  | false => exact hmag
  | true => exact mt (negW_eq_nar_iff hw).mp hmag

/-! ### Where MUL and DIV give NAR (R120, R130) -/

theorem mulFinite_z_ne_nar {w : Nat} (hw : 1 ≤ w) (es : Nat) (a b : BitVec w) : (mulFinite es a b).z ≠ nar w :=
  encodeRound_z_ne_nar hw _ _ _ _ _ _

theorem divFinite_z_ne_nar {w : Nat} (hw : 1 ≤ w) (es : Nat) (a b : BitVec w) : (divFinite es a b).z ≠ nar w :=
  encodeRound_z_ne_nar hw _ _ _ _ _ _

theorem positMul_eq_nar_iff {F : Format} {a b : Pattern F} :
    positMul F.ES a b = nar F.W ↔ a = nar F.W ∨ b = nar F.W := by
  have hW : 1 ≤ F.W := by have := F.eight_le_W; omega
  refine ⟨fun h => ?_, positMul_of_nar F.ES⟩
  rw [positMul] at h
  split at h
  case isTrue hnar => exact hnar
  case isFalse =>
    split at h
    case isTrue => exact absurd h (zeroPat_ne_nar F)
    case isFalse => exact absurd h (mulFinite_z_ne_nar hW F.ES a b)

theorem positDiv_eq_nar_iff {F : Format} {a b : Pattern F} :
    positDiv F.ES a b = nar F.W ↔ a = nar F.W ∨ b = nar F.W ∨ b = zeroPat F.W := by
  have hW : 1 ≤ F.W := by have := F.eight_le_W; omega
  refine ⟨fun h => ?_, positDiv_of_nar F.ES⟩
  rw [positDiv] at h
  split at h
  case isTrue hnar => exact or_assoc.mp (.inl hnar)
  case isFalse =>
    split at h
    case isTrue hdivisor => exact .inr (.inr hdivisor)
    case isFalse =>
      split at h
      case isTrue => exact absurd h (zeroPat_ne_nar F)
      case isFalse => exact absurd h (divFinite_z_ne_nar hW F.ES a b)

/-! ### The requests whose result is NAR (R171) -/

theorem patternOperand_eq_nar_iff {F : Format} {a : Nat} (ha : fitsPattern F a) :
    patternOperand F a = nar F.W ↔ a = 2 ^ (F.W - 1) := by
  have hW := F.eight_le_W
  rw [← BitVec.toNat_inj, nar_toNat (by omega), patternOperand, BitVec.toNat_ofNat, Nat.mod_eq_of_lt ha]

theorem patternOperand_eq_zeroPat_iff {F : Format} {a : Nat} (ha : fitsPattern F a) :
    patternOperand F a = zeroPat F.W ↔ a = 0 := by
  rw [← BitVec.toNat_inj, zeroPat_toNat, patternOperand, BitVec.toNat_ofNat, Nat.mod_eq_of_lt ha]

/-- What a state presents is the response it answers with. -/
theorem State.eq_of_answer {s : State} {r u : Response s.fmt}
    (h : s.answer r = .next ⟨s.fmt, s.inputs, u, s.idleCount⟩) : u = r := by
  cases h
  rfl

/-- Settles O17: PASS and NEG give NAR for the operand NAR, MUL and DIV where `positMul_eq_nar_iff` and
`positDiv_eq_nar_iff` say; PACK, ROUND and ENC give a packed or rounded pattern, which is not NAR, and every other
operation leaves `z` at 0. -/
theorem narArisesOnlyWhereListed : Obligations.NarArisesOnlyWhereListed := by
  intro s i r hfits hexec
  have hW : 1 ≤ s.fmt.W := by have := s.fmt.eight_le_W; omega
  cases i with
  | pass a =>
    rw [State.eq_of_answer hexec]
    exact patternOperand_eq_nar_iff (of_decide_eq_true hfits)
  | neg a =>
    rw [State.eq_of_answer hexec]
    exact (negW_eq_nar_iff hW).trans (patternOperand_eq_nar_iff (of_decide_eq_true hfits))
  | mul a b =>
    obtain ⟨ha, hb⟩ : fitsPattern s.fmt a ∧ fitsPattern s.fmt b := by simpa [Instr.wellFormed] using hfits
    rw [State.eq_of_answer hexec]
    exact positMul_eq_nar_iff.trans (or_congr (patternOperand_eq_nar_iff ha) (patternOperand_eq_nar_iff hb))
  | div a b =>
    obtain ⟨ha, hb⟩ : fitsPattern s.fmt a ∧ fitsPattern s.fmt b := by simpa [Instr.wellFormed] using hfits
    rw [State.eq_of_answer hexec]
    exact positDiv_eq_nar_iff.trans (or_congr (patternOperand_eq_nar_iff ha)
      (or_congr (patternOperand_eq_nar_iff hb) (patternOperand_eq_zeroPat_iff hb)))
  | pack k e ff =>
    rw [State.eq_of_answer hexec]
    exact iff_false_intro (setWidth_body_ne_nar hW _)
  | round p bnp1 more sticky =>
    rw [State.eq_of_answer hexec]
    exact iff_false_intro (roundApply_z_ne_nar hW _ _ _ _)
  | enc sign k e ff sticky =>
    rw [State.eq_of_answer hexec]
    exact iff_false_intro (encodeRound_z_ne_nar hW _ _ _ _ _ _)
  | rlen a | dec a | eq a b | le a b | lt a b | gt a b | reserved7 | reservedE | reservedF =>
    rw [State.eq_of_answer hexec]
    exact iff_false_intro (zeroPat_ne_nar s.fmt)

end Sys2Proof.Machine
end

section
/-! The construction-time check: `Format.make?` gives the formats there are and no others, and a format is exactly a
supported pair (W, ES). -/

namespace Sys2Proof

@[simp] theorem Width.ofBits?_bits (width : Width) : Width.ofBits? width.bits = some width := by
  cases width <;> rfl

theorem Width.bits_of_ofBits? {w : Nat} {width : Width} (h : Width.ofBits? w = some width) : width.bits = w := by
  unfold Width.ofBits? at h
  split at h <;> cases h <;> rfl

/-- R193: W is one of the four widths of R6. -/
theorem Width.exists_bits_eq_iff {w : Nat} :
    (∃ width : Width, width.bits = w) ↔ w = 8 ∨ w = 16 ∨ w = 32 ∨ w = 64 := by
  constructor
  · rintro ⟨width, rfl⟩
    cases width <;> decide
  · rintro (rfl | rfl | rfl | rfl)
    · exact ⟨.w8, rfl⟩
    · exact ⟨.w16, rfl⟩
    · exact ⟨.w32, rfl⟩
    · exact ⟨.w64, rfl⟩

theorem Format.make?_eq_some_iff {w es : Nat} {F : Format} :
    Format.make? w es = some F ↔ F.W = w ∧ F.ES = es := by
  constructor
  · intro h
    unfold Format.make? at h
    split at h
    · cases h
    next width hwidth =>
      split at h <;> cases h
      exact ⟨Width.bits_of_ofBits? hwidth, rfl⟩
  · rintro ⟨rfl, rfl⟩
    simp [Format.make?, F.es_le]

/-- R193: the proof field of a `Format` asks for the two conditions of the rule and nothing else. -/
theorem Format.exists_W_ES_eq_iff {w es : Nat} :
    (∃ F : Format, F.W = w ∧ F.ES = es) ↔ (w = 8 ∨ w = 16 ∨ w = 32 ∨ w = 64) ∧ es + 3 ≤ w := by
  rw [← Width.exists_bits_eq_iff]
  constructor
  · rintro ⟨F, rfl, rfl⟩
    exact ⟨⟨F.width, rfl⟩, F.es_le⟩
  · rintro ⟨⟨width, rfl⟩, hes⟩
    exact ⟨⟨width, es, hes⟩, rfl, rfl⟩

/-- Settles O1: a supported pair is the pair of some format (`Format.exists_W_ES_eq_iff`), which the check gives back, and
whatever format the check gives has the pair that was asked for (`Format.make?_eq_some_iff`), so that pair is supported. -/
theorem constructionAcceptsSupportedPairsOnly : Obligations.ConstructionAcceptsSupportedPairsOnly := by
  intro w es
  constructor
  · intro hsupported
    obtain ⟨F, hpair⟩ := Format.exists_W_ES_eq_iff.mpr hsupported
    exact ⟨F, Format.make?_eq_some_iff.mpr hpair, hpair⟩
  · intro hunsupported
    refine Option.eq_none_iff_forall_ne_some.mpr fun F hmake => hunsupported ?_
    exact Format.exists_W_ES_eq_iff.mp ⟨F, Format.make?_eq_some_iff.mp hmake⟩

end Sys2Proof
end
